-- ==== Sys2Proof/Word.lean ====
section
/-! DEFINITION. The one data type of the LS-8: an unsigned byte (00_scope R9, 10_state R21). -/

namespace Sys2Proof

/-- A byte: every register and memory value is one, unsigned, 0 to 255 (00_scope R9). -/
abbrev Byte := BitVec 8

end Sys2Proof
end

