-- ==== Sys2Proof/Config.lean ====
section
/-! DEFINITION. The implementation parameters of 00_scope R8 that are values. (Widths and sizes stand as
literals where they are used: 8-bit `Byte`, 8 registers, `MEM_SIZE` = 256.) -/

namespace Sys2Proof

/-- `SP_INDEX`: the register that is SP (00_scope R8, 10_state R22). -/
abbrev Config.spIndex : Fin 8 := 7

/-- `SP_INIT`: SP before the first instruction (00_scope R8, 70_reset R182). -/
def Config.spInit : Byte := 244

/-- `PC_INIT` (00_scope R8, 70_reset R183). -/
def Config.pcInit : Byte := 0

/-- What a cell holds at machine creation (70_reset R180). UNVERIFIED: the spec's own decision D11; unsafe,
log entry 3. -/
def Config.creationByte : Byte := 0

/-- `EXT_ALU` in the configuration the source describes (00_scope R4, R8). The parameter itself stays open: it is the
field `extAlu` of State, which no step writes (DESIGN CHOICE, safe, log entry 1). -/
def Config.extAluDefault : Bool := false

end Sys2Proof
end

