-- ==== Sys2Proof/Machine/State.lean ====
section
/-! DEFINITION. The state of the LS-8 as plain data, holding all of 10_state R20, and its value at reset (R37). -/

namespace Sys2Proof.Machine

/-- Memory as a list of (address, byte) cells; an address it does not list holds `Config.creationByte` (20_memory R40,
70_reset R180). Canonical form: `Memory.wf` in Machine/Ops.lean. -/
abbrev Memory := List Host.Cell

/-- The run state (10_state R31). -/
inductive RunState where
  | running
  | halted
  deriving DecidableEq, Repr

/-- The five fatal error causes (60_exceptions R160, R177). -/
inductive Cause where
  /-- A memory access outside 0 to 255 (R161). -/
  | addressError
  /-- A register operand byte of 8 or more (R163). -/
  | registerIndexError
  /-- The ALU was given an operation it does not have (R164). -/
  | unsupportedOperationError
  /-- An opcode byte not in the map (R162). -/
  | unknownInstructionError
  /-- The external loader failed (R165). -/
  | programLoadError
  deriving DecidableEq, Repr

/-- The fault record's pair (10_state R32). -/
structure FaultRecord where
  cause : Cause
  info  : Nat
  deriving DecidableEq, Repr

/-- The three condition bits of FL: Equal, Less-than, Greater-than (10_state R27). Bits 7 to 3 of the register always read
0, so they are no storage; the byte view is `Flags.byte` in Machine/Flags.lean (DESIGN CHOICE, safe, log entry 14). -/
structure Flags where
  e : Bool
  l : Bool
  g : Bool
  deriving DecidableEq, Repr

/-- The machine state (10_state R20). -/
structure State where
  /-- The 256-byte memory (20_memory R40). -/
  mem    : Memory
  /-- R0 to R7; index 7 is SP (10_state R21, R22). -/
  regs   : Vector Byte 8
  /-- The program counter (10_state R25). -/
  pc     : Byte
  /-- The flags register (10_state R27). -/
  fl     : Flags
  /-- Running or Halted (10_state R31). -/
  run    : RunState
  /-- The fault record (10_state R32). -/
  fault  : Option FaultRecord
  /-- The output events, oldest first (10_state R33). -/
  out    : List Byte
  /-- The configuration parameter EXT_ALU, fixed for a run (00_scope R4, 10_state R36). DESIGN CHOICE, safe, log entry 1. -/
  extAlu : Bool
  deriving DecidableEq, Repr

/-- The machine never stops with a fault of the interface: every fatal error of the spec is a NEXT state that holds the
fault record and is Halted, because the spec describes that entry whole (60_exceptions R166). So this closed type has no
constructor (DESIGN CHOICE, safe, log entry 6). -/
inductive Fault where
  deriving DecidableEq, Repr

/-- Why a step has no meaning. -/
inductive Refusal where
  /-- Raised only by an arm of `exec` whose instruction has no meaning yet; safe. No arm of this model answers it. -/
  | notModelled (mnemonic : String)
  deriving DecidableEq, Repr

/-- The machine at launch with nothing loaded: the table of 10_state R37 with n = 0. FL = 0 (D10, log entry 2) and the
memory's zeros (D11, log entry 3) are the spec's own decisions: UNVERIFIED, unsafe. -/
def State.reset : State where
  mem    := []
  regs   := #v[0, 0, 0, 0, 0, 0, 0, Config.spInit]
  pc     := Config.pcInit
  fl     := ⟨false, false, false⟩
  run    := .running
  fault  := none
  out    := []
  extAlu := Config.extAluDefault

end Sys2Proof.Machine
end

