-- ==== Sys2Proof/Machine/Flags.lean ====
section
/-! DEFINITION. The flags register: its ONE layout definition, the compare that computes it, and the Equal test
(10_state R27 to R29, 42_alu R115, 44_control R147). -/

namespace Sys2Proof.Machine

/-- FL as a byte, `0b00000LGE`: E bit 0, G bit 1, L bit 2, bits 7 to 3 read 0 (10_state R27; G4: UNVERIFIED, log entry 4). -/
def Flags.byte (f : Flags) : Byte :=
  (if f.e then 0b001 else 0) ||| (if f.g then 0b010 else 0) ||| (if f.l then 0b100 else 0)

/-- `E_MASK` (44_control R147). -/
def eMask : Byte := 0b00000001

/-- The Equal bit is set, tested by a bitwise mask (44_control R147). -/
def Flags.equalSet (f : Flags) : Bool := (f.byte &&& eMask) != 0

/-- The flags of a compare of unsigned bytes: exactly one is 1 (42_alu R115). -/
def compareFlags (a b : Byte) : Flags :=
  { e := decide (a = b), l := decide (a.toNat < b.toNat), g := decide (b.toNat < a.toNat) }

end Sys2Proof.Machine
end

