-- ==== Sys2Proof/Syntax.lean ====
section
/-! DEFINITION. The instructions as syntax: one constructor of `Instr` for each row of the opcode map
(30_encoding R67), the operation names, the four formats, and the three bytes a fetch latches. -/

namespace Sys2Proof

/-- An instruction with its operand bytes as fetched. `ra` and `rb` are register operands: WHOLE bytes, of which 0 to 7
name a register (30_encoding R65); `imm` is an unsigned immediate (R66). -/
inductive Instr where
  | ldi (ra imm : Byte)
  | prn (ra : Byte)
  | hlt
  | add (ra rb : Byte)
  | mul (ra rb : Byte)
  | cmp (ra rb : Byte)
  | push (ra : Byte)
  | pop (ra : Byte)
  | call (ra : Byte)
  | ret
  | jmp (ra : Byte)
  | jeq (ra : Byte)
  | jne (ra : Byte)
  | sub (ra rb : Byte)
  | and (ra rb : Byte)
  | or (ra rb : Byte)
  | xor (ra rb : Byte)
  deriving DecidableEq, Repr

/-- The operation a row of the opcode map names (30_encoding R67, column "mnemonic"). -/
inductive Op where
  | ldi | prn | hlt | add | mul | cmp | push | pop | call | ret | jmp | jeq | jne | sub | and | or | xor
  deriving DecidableEq, Repr

/-- The four instruction formats (30_encoding R64). -/
inductive Format where
  /-- No operand: HLT, RET. -/
  | f0
  /-- One register operand. -/
  | f1r
  /-- A register operand and an immediate: LDI. -/
  | f2ri
  /-- Two register operands. -/
  | f2rr
  deriving DecidableEq, Repr

/-- A row of the opcode map (30_encoding R67): the opcode byte, its format, and whether only EXT_ALU = true has it. -/
structure OpcodeRow where
  opcode : Byte
  format : Format
  ext    : Bool
  deriving DecidableEq, Repr

/-- What the decoder gives for an opcode byte (30_encoding R63). -/
structure OpcodeInfo where
  operandCount : Nat
  isAluOp      : Bool
  setsPc       : Bool
  known        : Bool
  deriving DecidableEq, Repr

/-- The transient latches the fetch fills: the opcode byte and the two prospective operand bytes (10_state R34). They live
within one step and are no part of State. -/
structure Latches where
  ir  : Byte
  op1 : Byte
  op2 : Byte
  deriving DecidableEq, Repr

/-- What decoding answers: an instruction, or the opcode byte rejected by name (30_encoding R69). -/
inductive DecodeResult where
  | known (i : Instr)
  /-- The opcode is not in the map under the configured EXT_ALU; the sequencer raises `UnknownInstructionError` (40_sequencer R84). -/
  | unknownInstruction (opcode : Byte)
  deriving DecidableEq, Repr

end Sys2Proof
end

