-- ==== Sys2Proof/Decode.lean ====
section
/-! DEFINITION. The opcode map (ONE table), the decoder, the encoder, the reading of the opcode table's words, and the
assembler spelling (30_encoding R60 to R73). Every opcode value is UNVERIFIED (the spec's general knowledge, D1, G1 to G3):
unsafe, log entry 4. -/

namespace Sys2Proof

/-- The opcode map of 30_encoding R67, one row an operation. -/
def opcodeRow : Op → OpcodeRow
  | .ldi  => ⟨0x82, .f2ri, false⟩
  | .prn  => ⟨0x47, .f1r,  false⟩
  | .hlt  => ⟨0x01, .f0,   false⟩
  | .add  => ⟨0xA0, .f2rr, false⟩
  | .mul  => ⟨0xA2, .f2rr, false⟩
  | .cmp  => ⟨0xA7, .f2rr, false⟩
  | .push => ⟨0x45, .f1r,  false⟩
  | .pop  => ⟨0x46, .f1r,  false⟩
  | .call => ⟨0x50, .f1r,  false⟩
  | .ret  => ⟨0x11, .f0,   false⟩
  | .jmp  => ⟨0x54, .f1r,  false⟩
  | .jeq  => ⟨0x55, .f1r,  false⟩
  | .jne  => ⟨0x56, .f1r,  false⟩
  | .sub  => ⟨0xA1, .f2rr, true⟩
  | .and  => ⟨0xA8, .f2rr, true⟩
  | .or   => ⟨0xAA, .f2rr, true⟩
  | .xor  => ⟨0xAB, .f2rr, true⟩

/-- Every operation, in the map's order. -/
def allOps : List Op :=
  [.ldi, .prn, .hlt, .add, .mul, .cmp, .push, .pop, .call, .ret, .jmp, .jeq, .jne, .sub, .and, .or, .xor]

/-- The opcode byte of an operation. -/
def opcodeOf (m : Op) : Byte := (opcodeRow m).opcode

/-- `IR[7:6]`, the operand count (30_encoding R61, R62). -/
def operandCount (ir : Byte) : Nat := (ir.extractLsb' 6 2).toNat

/-- `IR[5]`: the byte is labelled an ALU operation (30_encoding R62). -/
def aluBit (ir : Byte) : Bool := ir.getLsbD 5

/-- `IR[4]`: the byte is labelled as setting PC (30_encoding R62). -/
def setsPcBit (ir : Byte) : Bool := ir.getLsbD 4

/-- A row is in the map under `ext` = EXT_ALU (30_encoding R67, column `EXT_ALU`). -/
def configured (ext : Bool) (m : Op) : Bool := ext || !(opcodeRow m).ext

/-- Dispatch: the operation whose row holds the whole opcode byte, under `ext` = EXT_ALU (40_sequencer R84). -/
def lookup (ext : Bool) (ir : Byte) : Option Op :=
  allOps.find? fun m => opcodeOf m == ir && configured ext m

/-- The decoder's outputs for an opcode byte, unknown ones included (30_encoding R63). -/
def decodeOpcode (ext : Bool) (ir : Byte) : OpcodeInfo :=
  { operandCount := operandCount ir
    isAluOp      := aluBit ir
    setsPc       := setsPcBit ir
    known        := (lookup ext ir).isSome }

/-- The sequential advance `adv = operand_count + 1` of an operation (40_sequencer R83, R87). -/
def adv (m : Op) : Nat := operandCount (opcodeOf m) + 1

/-- The instruction an operation makes of the two prospective operand bytes (30_encoding R64): the bytes its format does
not use are dropped (R70). -/
def Op.build (m : Op) (op1 op2 : Byte) : Instr :=
  match m with
  | .ldi  => .ldi op1 op2
  | .prn  => .prn op1
  | .hlt  => .hlt
  | .add  => .add op1 op2
  | .mul  => .mul op1 op2
  | .cmp  => .cmp op1 op2
  | .push => .push op1
  | .pop  => .pop op1
  | .call => .call op1
  | .ret  => .ret
  | .jmp  => .jmp op1
  | .jeq  => .jeq op1
  | .jne  => .jne op1
  | .sub  => .sub op1 op2
  | .and  => .and op1 op2
  | .or   => .or op1 op2
  | .xor  => .xor op1 op2

/-- Decoding the three latched bytes under `ext` = EXT_ALU. Total; a byte that is no row of the map is rejected by name
(30_encoding R69, 40_sequencer R84). Register operands are NOT checked here: the operand check comes after
dispatch (40_sequencer R85). -/
def decode (ext : Bool) (l : Latches) : DecodeResult :=
  match lookup ext l.ir with
  | some m => .known (m.build l.op1 l.op2)
  | none   => .unknownInstruction l.ir

/-- The operation of an instruction. -/
def Instr.op : Instr → Op
  | .ldi _ _ => .ldi
  | .prn _   => .prn
  | .hlt     => .hlt
  | .add _ _ => .add
  | .mul _ _ => .mul
  | .cmp _ _ => .cmp
  | .push _  => .push
  | .pop _   => .pop
  | .call _  => .call
  | .ret     => .ret
  | .jmp _   => .jmp
  | .jeq _   => .jeq
  | .jne _   => .jne
  | .sub _ _ => .sub
  | .and _ _ => .and
  | .or _ _  => .or
  | .xor _ _ => .xor

/-- The operand bytes of an instruction, in memory order (30_encoding R60, R64). -/
def Instr.operands : Instr → List Byte
  | .ldi ra imm => [ra, imm]
  | .prn ra     => [ra]
  | .hlt        => []
  | .add ra rb  => [ra, rb]
  | .mul ra rb  => [ra, rb]
  | .cmp ra rb  => [ra, rb]
  | .push ra    => [ra]
  | .pop ra     => [ra]
  | .call ra    => [ra]
  | .ret        => []
  | .jmp ra     => [ra]
  | .jeq ra     => [ra]
  | .jne ra     => [ra]
  | .sub ra rb  => [ra, rb]
  | .and ra rb  => [ra, rb]
  | .or ra rb   => [ra, rb]
  | .xor ra rb  => [ra, rb]

/-- The bytes of an instruction at ascending addresses: opcode, operand 1, operand 2 (30_encoding R60, 20_memory R45). -/
def encode (i : Instr) : List Byte := opcodeOf i.op :: i.operands

/-- The latches a fetch fills from bytes at ascending addresses (40_sequencer R82). -/
def Latches.ofBytes (bs : List Byte) : Latches := ⟨bs.getD 0 0, bs.getD 1 0, bs.getD 2 0⟩

/-- The latches of a word numbered as spec/opcode_table.json numbers it: byte 0 is bits 7..0, byte 1 bits 15..8, byte 2
bits 23..16; every bit from `nbits` up is 0. -/
def Latches.ofTableWord (nbits w : Nat) : Latches :=
  let v := w % 2 ^ nbits
  ⟨BitVec.ofNat 8 v, BitVec.ofNat 8 (v / 256), BitVec.ofNat 8 (v / 65536)⟩

/-- The instruction the decoder reads from a table word. The table holds the EXT_ALU rows too, so this reads with the
whole map, EXT_ALU = true (DESIGN CHOICE, safe, log entry 11). -/
def decodeTableWord (nbits w : Nat) : Option Instr :=
  match decode true (Latches.ofTableWord nbits w) with
  | .known i              => some i
  | .unknownInstruction _ => none

/-- The mnemonic of an operation, as 30_encoding R67 spells it. -/
def Op.mnemonic : Op → String
  | .ldi  => "LDI"
  | .prn  => "PRN"
  | .hlt  => "HLT"
  | .add  => "ADD"
  | .mul  => "MUL"
  | .cmp  => "CMP"
  | .push => "PUSH"
  | .pop  => "POP"
  | .call => "CALL"
  | .ret  => "RET"
  | .jmp  => "JMP"
  | .jeq  => "JEQ"
  | .jne  => "JNE"
  | .sub  => "SUB"
  | .and  => "AND"
  | .or   => "OR"
  | .xor  => "XOR"

/-- An instruction in the assembler syntax of 30_encoding R72: mnemonic, then the operands separated by a comma; registers
as R<n>, an immediate in decimal. It has no behaviour (D18). Decimal among the spellings R72 allows, and R<n> for an operand byte of
8 or more, are the model's (DESIGN CHOICE, safe, log entry 18). -/
def Instr.asm (i : Instr) : String :=
  let reg (b : Byte) : String := "R" ++ toString b.toNat
  match (opcodeRow i.op).format, i.operands with
  | .f1r,  [a]    => i.op.mnemonic ++ " " ++ reg a
  | .f2ri, [a, v] => i.op.mnemonic ++ " " ++ reg a ++ "," ++ toString v.toNat
  | .f2rr, [a, b] => i.op.mnemonic ++ " " ++ reg a ++ "," ++ reg b
  | _,     _      => i.op.mnemonic

end Sys2Proof
end

