-- ==== Sys2Proof/Machine/Ops.lean ====
section
/-! DEFINITION. The named operations over memory, registers, output and run state, raising a fatal error (the one shared
operation), the fetch, the stack pointer's control, and the three outcomes of an instruction rule. -/

namespace Sys2Proof.Machine

/-- What a step and a meaning answer. -/
abbrev Result := Host.Outcome State Fault Refusal

/-- A value, or the fault record of the error its computation raises (60_exceptions R166). -/
abbrev Checked (α : Type) := Except FaultRecord α

/-! ### Memory (20_memory) -/

/-- Addresses strictly rising from `lo` and below 256, and no listed cell equal to what an unlisted one holds. -/
def Memory.wfFrom (lo : Nat) : Memory → Bool
  | []             => true
  | (a, v) :: rest => decide (lo ≤ a) && decide (a < 256) && v != Config.creationByte && Memory.wfFrom (a + 1) rest

/-- The canonical form: two well-formed memories with the same bytes are the same list. -/
def Memory.wf (m : Memory) : Bool := Memory.wfFrom 0 m

/-- The byte at an address; an unlisted one holds the creation value (70_reset R180). -/
def Memory.read : Memory → Nat → Byte
  | [],             _ => Config.creationByte
  | (b, v) :: rest, a => if b = a then v else Memory.read rest a

/-- The cells but that of `a`. -/
def Memory.erase (m : Memory) (a : Nat) : Memory := m.filter fun c => c.1 != a

/-- Insert a cell before the first higher address. -/
def Memory.insert (a : Nat) (v : Byte) : Memory → Memory
  | []             => [(a, v)]
  | (b, w) :: rest => if a < b then (a, v) :: (b, w) :: rest else (b, w) :: Memory.insert a v rest

/-- Write exactly one cell (20_memory R44), keeping the canonical form: writing the creation value removes the entry. -/
def Memory.write (m : Memory) (a : Nat) (v : Byte) : Memory :=
  if v = Config.creationByte then m.erase a else Memory.insert a v (m.erase a)

/-- `MemRead(addr, 1)`: an address of 256 or more raises `AddressError(addr)` (20_memory R42). -/
def memRead (a : Nat) (s : State) : Checked Byte :=
  if a < 256 then .ok (s.mem.read a) else .error ⟨.addressError, a⟩

/-- `MemWrite(addr, 1, v)` (20_memory R42). -/
def memWrite (a : Nat) (v : Byte) (s : State) : Checked State :=
  if a < 256 then .ok { s with mem := s.mem.write a v } else .error ⟨.addressError, a⟩

/-- `MemRead` at an address an 8-bit register holds: always in range (20_memory R43). -/
def State.readAt (s : State) (a : Byte) : Byte := s.mem.read a.toNat

/-- `MemWrite` at an address an 8-bit register holds: always in range (20_memory R43). -/
def State.writeAt (s : State) (a v : Byte) : State := { s with mem := s.mem.write a.toNat v }

/-! ### Registers, PC, flags, output (10_state) -/

/-- `R[i]` (00_scope R10). -/
def State.reg (s : State) (i : Fin 8) : Byte := s.regs[i]

/-- `R[i] <- v`; the mask to 8 bits is the type of `v` (42_alu R110). None is hardwired (10_state R21). -/
def State.setReg (s : State) (i : Fin 8) (v : Byte) : State := { s with regs := s.regs.set i v }

/-- `SP`, which is `R[7]` (10_state R22). -/
def State.sp (s : State) : Byte := s.reg Config.spIndex

/-- `pc <- v`. -/
def State.setPc (s : State) (v : Byte) : State := { s with pc := v }

/-- `FL <- {E, L, G}`: all three bits at once (10_state R28). -/
def State.setFl (s : State) (f : Flags) : State := { s with fl := f }

/-- `emit(v)`: append to the output events (10_state R33, 41_data_io R101). The output port is always ready (00_scope R15). -/
def State.emit (s : State) (v : Byte) : State := { s with out := s.out ++ [v] }

/-! ### Fatal errors (60_exceptions) -/

/-- `raise Cause(info)`: the fault record is written and the core halts; nothing is saved, PC keeps the address of the
instruction that raised, nothing else changes (60_exceptions R166). -/
def State.raise (s : State) (f : FaultRecord) : State := { s with fault := some f, run := .halted }

/-- Go on with a checked value, or raise its error. -/
def State.orRaise {α : Type} (s : State) (c : Checked α) (k : α → State) : State :=
  match c with
  | .ok v    => k v
  | .error f => s.raise f

/-- The numeric code of a cause (60_exceptions R177). -/
def Cause.code : Cause → Nat
  | .addressError              => 1
  | .registerIndexError        => 2
  | .unsupportedOperationError => 3
  | .unknownInstructionError   => 4
  | .programLoadError          => 5

/-- The code of the status output: 0 where the fault record is none (60_exceptions R177, 00_scope R15). -/
def State.causeCode (s : State) : Nat :=
  match s.fault with
  | none   => 0
  | some f => f.cause.code

/-! ### Fetch (40_sequencer R82) -/

/-- The three fetch reads, in order, each in integer address arithmetic without wrapping; the two operand reads happen for
every opcode. The `AddressError` past 255 is the spec's own decision D5 (UNVERIFIED, safe, log entry 9). -/
def fetch (s : State) : Checked Latches := do
  let ir  ← memRead s.pc.toNat s
  let op1 ← memRead (s.pc.toNat + 1) s
  let op2 ← memRead (s.pc.toNat + 2) s
  return ⟨ir, op1, op2⟩

/-! ### Stack pointer control (40_sequencer R91, R92) -/

/-- `SP <- (SP - 1) mod 256`. -/
def State.decSp (s : State) : State := s.setReg Config.spIndex (s.sp - 1)

/-- `SP <- (SP + 1) mod 256`. -/
def State.incSp (s : State) : State := s.setReg Config.spIndex (s.sp + 1)

/-- Write a byte at SP. -/
def State.writeTop (s : State) (v : Byte) : State := s.writeAt s.sp v

/-- Read the byte at SP. -/
def State.readTop (s : State) : Byte := s.readAt s.sp

/-! ### The outcomes of an instruction rule (40_sequencer R86 to R90) -/

/-- `next = seq`: advance by the operation's length, or, past 255, raise `AddressError(PC + adv)` with the instruction's
writes standing and PC unchanged (40_sequencer R87, R88; D6: UNVERIFIED, safe, log entry 9). -/
def State.seq (s : State) (m : Op) : State :=
  if s.pc.toNat + adv m < 256 then s.setPc (BitVec.ofNat 8 (s.pc.toNat + adv m))
  else s.raise ⟨.addressError, s.pc.toNat + adv m⟩

/-- `next = target t`: PC set directly, no advance added; it never faults (40_sequencer R89, 44_control R140). -/
def State.target (s : State) (t : Byte) : State := s.setPc t

/-- `next = halt`: Halted, fault record and PC unchanged (40_sequencer R90). -/
def State.halt (s : State) : State := { s with run := .halted }

end Sys2Proof.Machine
end

