-- ==== Sys2Proof/Machine/Operands.lean ====
section
/-! DEFINITION. The one checked operand form of the LS-8: a register operand, a whole byte of which 0 to 7 name a register
(30_encoding R65, 40_sequencer R85). An immediate is the byte itself (30_encoding R66) and needs no operation. -/

namespace Sys2Proof.Machine

/-- The register a byte names, or `RegisterIndexError(byte)` (60_exceptions R163). The whole byte counts (D8: UNVERIFIED,
safe, log entry 9). -/
def regIndex (b : Byte) : Checked (Fin 8) :=
  if h : b.toNat < 8 then .ok ⟨b.toNat, h⟩ else .error ⟨.registerIndexError, b.toNat⟩

/-- Check one register operand before any write, then go on with its index (40_sequencer R85). -/
def withReg (ra : Byte) (s : State) (k : Fin 8 → State) : State := s.orRaise (regIndex ra) k

/-- Check operand 1, then operand 2 (40_sequencer R85; D7: UNVERIFIED, log entry 9). -/
def withRegs (ra rb : Byte) (s : State) (k : Fin 8 → Fin 8 → State) : State :=
  withReg ra s fun a => withReg rb s fun b => k a b

end Sys2Proof.Machine
end

