-- ==== Sys2Proof/Machine/Alu.lean ====
section
/-! DEFINITION. The ALU (42_alu R111 to R115, R119) and the ALU instructions ADD, MUL, CMP and, under EXT_ALU,
SUB, AND, OR, XOR (R116 to R118, R120 to R123). -/

namespace Sys2Proof.Machine

/-- The operations the ALU is given (42_alu R111). -/
inductive AluOp where
  | add | mul | cmp | sub | and | or | xor
  deriving DecidableEq, Repr

/-- What the ALU returns: a byte, or a flag triple (42_alu R111). -/
inductive AluResult where
  | byte (v : Byte)
  | flags (f : Flags)
  deriving DecidableEq, Repr

/-- The ALU has the operation under `ext` = EXT_ALU (42_alu R111). -/
def AluOp.configured (ext : Bool) : AluOp → Bool
  | .add | .mul | .cmp        => true
  | .sub | .and | .or | .xor => ext

/-- What each operation computes, on unsigned bytes, results modulo 256 (42_alu R113 to R115, R119 to R123). -/
def AluOp.compute (op : AluOp) (a b : Byte) : AluResult :=
  match op with
  | .add => .byte (a + b)
  | .mul => .byte (a * b)
  | .cmp => .flags (compareFlags a b)
  | .sub => .byte (a - b)
  | .and => .byte (a &&& b)
  | .or  => .byte (a ||| b)
  | .xor => .byte (a ^^^ b)

/-- `apply(op, a, b)`, stateless; none is the ALU's failure, `UnsupportedOperationError` (42_alu R111, R112). -/
def aluApply (ext : Bool) (op : AluOp) (a b : Byte) : Option AluResult :=
  if op.configured ext then some (op.compute a b) else none

/-- Store what the ALU returned: a byte into register `a`, a flag triple into FL (42_alu R111 "the caller stores the
result"). A failure raises with the driving instruction's opcode as info (60_exceptions R164): no program reaches it. -/
def storeAlu (s : State) (m : Op) (a : Fin 8) : Option AluResult → State
  | some (.byte v)  => (s.setReg a v).seq m
  | some (.flags f) => (s.setFl f).seq m
  | none            => s.raise ⟨.unsupportedOperationError, (opcodeOf m).toNat⟩

/-- An ALU instruction of format `F2RR`: check both operands, apply, store, advance. Both operands are read before the
result is written. -/
def aluInstr (m : Op) (op : AluOp) (ra rb : Byte) (s : State) : State :=
  withRegs ra rb s fun a b => storeAlu s m a (aluApply s.extAlu op (s.reg a) (s.reg b))

/-- ADD (42_alu R116). -/
def execAdd (ra rb : Byte) (s : State) : Result := .next (aluInstr .add .add ra rb s)

/-- MUL (42_alu R117). -/
def execMul (ra rb : Byte) (s : State) : Result := .next (aluInstr .mul .mul ra rb s)

/-- CMP (42_alu R118). -/
def execCmp (ra rb : Byte) (s : State) : Result := .next (aluInstr .cmp .cmp ra rb s)

/-- SUB, reached by dispatch only with EXT_ALU = true (42_alu R120; without it, log entry 12). -/
def execSub (ra rb : Byte) (s : State) : Result := .next (aluInstr .sub .sub ra rb s)

/-- AND, reached by dispatch only with EXT_ALU = true (42_alu R121). -/
def execAnd (ra rb : Byte) (s : State) : Result := .next (aluInstr .and .and ra rb s)

/-- OR, reached by dispatch only with EXT_ALU = true (42_alu R122). -/
def execOr (ra rb : Byte) (s : State) : Result := .next (aluInstr .or .or ra rb s)

/-- XOR, reached by dispatch only with EXT_ALU = true (42_alu R123). -/
def execXor (ra rb : Byte) (s : State) : Result := .next (aluInstr .xor .xor ra rb s)

end Sys2Proof.Machine
end

