-- ==== Sys2Proof/Machine/Control.lean ====
section
/-! DEFINITION. CALL, RET, JMP, JEQ and JNE (44_control R140 to R147). -/

namespace Sys2Proof.Machine

/-- CALL: push PC + 2, then jump to the register as it stands after the decrement (44_control R141; D9: log entry 9).
PC + 2 cannot pass 255 in a step (log entry 13). -/
def execCall (ra : Byte) (s : State) : Result :=
  .next (withReg ra s fun a =>
    let s1 := s.decSp
    let s2 := s1.writeTop (s.pc + 2)
    s2.target (s2.reg a))

/-- RET: pop the target (44_control R142). -/
def execRet (s : State) : Result := .next (s.incSp.target s.readTop)

/-- JMP (44_control R143). -/
def execJmp (ra : Byte) (s : State) : Result := .next (withReg ra s fun a => s.target (s.reg a))

/-- JEQ: the operand is checked whether or not the branch is taken (44_control R144, 40_sequencer R85). -/
def execJeq (ra : Byte) (s : State) : Result :=
  .next (withReg ra s fun a => if s.fl.equalSet then s.target (s.reg a) else s.seq .jeq)

/-- JNE (44_control R145). -/
def execJne (ra : Byte) (s : State) : Result :=
  .next (withReg ra s fun a => if s.fl.equalSet then s.seq .jne else s.target (s.reg a))

end Sys2Proof.Machine
end

