-- ==== Sys2Proof/Machine/DataIo.lean ====
section
/-! DEFINITION. LDI, PRN and HLT (41_data_io R100 to R102). -/

namespace Sys2Proof.Machine

/-- LDI: the immediate is stored unchanged (41_data_io R100). -/
def execLdi (ra imm : Byte) (s : State) : Result :=
  .next (withReg ra s fun a => (s.setReg a imm).seq .ldi)

/-- PRN: append the register's byte to the output events (41_data_io R101). -/
def execPrn (ra : Byte) (s : State) : Result :=
  .next (withReg ra s fun a => (s.emit (s.reg a)).seq .prn)

/-- HLT (41_data_io R102). -/
def execHlt (s : State) : Result := .next s.halt

end Sys2Proof.Machine
end

