-- ==== Sys2Proof/Machine/Stack.lean ====
section
/-! DEFINITION. PUSH and POP (43_stack R130 to R133). The steps run in the written order, each reading what the earlier
ones wrote (00_scope R10; D9 for R7: UNVERIFIED, unsafe, log entry 9). -/

namespace Sys2Proof.Machine

/-- PUSH: SP is decremented, then the register is read and stored at the new SP (43_stack R131). -/
def execPush (ra : Byte) (s : State) : Result :=
  .next (withReg ra s fun a =>
    let s1 := s.decSp
    (s1.writeTop (s1.reg a)).seq .push)

/-- POP: the byte at SP goes into the register, then R7 as it now stands is incremented (43_stack R132). -/
def execPop (ra : Byte) (s : State) : Result :=
  .next (withReg ra s fun a => (s.setReg a s.readTop).incSp.seq .pop)

end Sys2Proof.Machine
end

