-- ==== Sys2Proof/Machine/Sequencer.lean ====
section
/-! DEFINITION. The whole step of 40_sequencer R96, and placing a table word where the next step fetches. -/

namespace Sys2Proof.Machine

/-- One step while Running: fetch, dispatch, then the instruction's rule, which checks its operands first (40_sequencer R96). -/
def runningStep (s : State) : Result :=
  match fetch s with
  | .error f => .next (s.raise f)
  | .ok l =>
    match decode s.extAlu l with
    | .unknownInstruction opcode => .next (s.raise ⟨.unknownInstructionError, opcode.toNat⟩)
    | .known i => exec i s

/-- The sequencer. Halted is a final state, not a stuck one, and everything stays as it is for good (40_sequencer R81): the
machine answers itself (DESIGN CHOICE, safe, log entry 5). -/
def sequencerStep (s : State) : Result :=
  match s.run with
  | .halted  => .next s
  | .running => runningStep s

/-- Write a byte where the address exists. -/
def Memory.place (m : Memory) (a : Nat) (v : Byte) : Memory :=
  if a < 256 then m.write a v else m

/-- The table word's three bytes at PC, PC + 1, PC + 2, the core Running, and EXT_ALU = true where the opcode is a row only
that configuration has; nothing else changes (DESIGN CHOICE, safe, log entry 10). -/
def placeWord (s : State) (nbits w : Nat) : State :=
  let l := Latches.ofTableWord nbits w
  { s with
    mem    := ((s.mem.place s.pc.toNat l.ir).place (s.pc.toNat + 1) l.op1).place (s.pc.toNat + 2) l.op2
    run    := .running
    extAlu := s.extAlu || ((lookup false l.ir).isNone && (lookup true l.ir).isSome) }

end Sys2Proof.Machine
end

