-- ==== Sys2Proof/Machine/Step.lean ====
section
/-! DEFINITION. The machine's step and the host's way to place an instruction where the step fetches. -/

namespace Sys2Proof.Machine

/-- One step (40_sequencer R80, R81, R96). -/
def step (s : State) : Host.Outcome State Fault Refusal := sequencerStep s

/-- `s` with the table word stored where `step` fetches its next instruction (log entry 10). -/
def State.withFetchWord (s : State) (nbits w : Nat) : State := placeWord s nbits w

end Sys2Proof.Machine
end

