-- ==== Sys2Proof/Machine/Boot.lean ====
section
/-! DEFINITION. The host's moves before a run: create, load, launch (00_scope R16, 70_reset R180 to R183), the loader's failure
(60_exceptions R165), and the text of an output event (41_data_io R103). -/

namespace Sys2Proof.Machine

/-- Machine creation, the only reset (70_reset R180): memory, registers, PC and FL 0, fault none, output empty. EXT_ALU is
the configuration `ext`. It does not run before its launch (DEDUCED, safe, log entry 7). -/
def State.create (ext : Bool) : State where
  mem    := []
  regs   := Vector.replicate 8 0
  pc     := Config.pcInit
  fl     := ⟨false, false, false⟩
  run    := .halted
  fault  := none
  out    := []
  extAlu := ext

/-- Write bytes from address `k` up; a write past 255 raises `AddressError` (70_reset R181, 20_memory R42). -/
def State.loadFrom (s : State) (k : Nat) : List Byte → State
  | []      => s
  | b :: bs => s.orRaise (memWrite k b s) fun s' => s'.loadFrom (k + 1) bs

/-- Program load: the bytes from address 0, in order (70_reset R181). -/
def State.load (s : State) (p : List Byte) : State := s.loadFrom 0 p

/-- The external loader failed: nothing reaches the core, `ProgramLoadError` with info 0 (60_exceptions R165, R177). -/
def State.loadFailed (s : State) : State := s.raise ⟨.programLoadError, 0⟩

/-- Launch: SP <- 244, Running, PC = 0 (70_reset R182, R183); a machine whose load failed never launches (R181, 60_exceptions R165). -/
def State.launch (s : State) : State :=
  match s.fault with
  | some _ => s
  | none   => { s.setReg Config.spIndex Config.spInit with run := .running, pc := Config.pcInit }

/-- Create, load, launch, of what the external parser answered: the program's bytes, or none where it failed
(00_scope R16). -/
def boot (ext : Bool) (parsed : Option (List Byte)) : State :=
  match parsed with
  | some p => ((State.create ext).load p).launch
  | none   => (State.create ext).loadFailed.launch

/-- A decimal digit. -/
def decimalDigit (n : Nat) : Char := Char.ofNat (48 + n % 10)

/-- The line the output sink prints for an output event: decimal, no sign, no leading zeros, and a line end (41_data_io R103).
The formatting is the host's. R103 does not say which character ends the line: LF is the model's (DESIGN CHOICE, unsafe, log
entry 17). -/
def outputLine (v : Byte) : List Char :=
  let n := v.toNat
  (if 100 ≤ n then [decimalDigit (n / 100)] else []) ++
  (if 10 ≤ n then [decimalDigit (n / 10)] else []) ++ [decimalDigit n, '\n']

end Sys2Proof.Machine
end

