-- ==== Sys2Proof/WellFormed.lean ====
section
/-! DEFINITION. When an instruction is well formed: it is in the opcode map under the configured EXT_ALU, and each of
its register operands names a register (30_encoding R65, R67). -/

namespace Sys2Proof

/-- The register operands of an instruction, in the order they are checked (40_sequencer R85): operand 1 of `F1R` and
`F2RI`, operands 1 and 2 of `F2RR`. -/
def Instr.regOperands (i : Instr) : List Byte :=
  match (opcodeRow i.op).format with
  | .f0   => []
  | .f1r  => i.operands.take 1
  | .f2ri => i.operands.take 1
  | .f2rr => i.operands.take 2

/-- A register operand byte that names a register: the whole byte is the index (30_encoding R65). -/
def isRegByte (b : Byte) : Bool := decide (b.toNat < 8)

/-- The instruction is a row of the opcode map under `ext` = EXT_ALU (30_encoding R67). -/
def Instr.available (ext : Bool) (i : Instr) : Bool := configured ext i.op

/-- A well-formed instruction under `ext` = EXT_ALU. -/
def WellFormed (ext : Bool) (i : Instr) : Bool := i.available ext && i.regOperands.all isRegByte

end Sys2Proof
end

