-- ==== Sys2Proof/Safety.lean ====
section
/-! DEFINITION. What claims about the LS-8 are stated in: how a run ends and what is observed of it (40_sequencer R97), the
frames of a step, and the invariant every step keeps. -/

namespace Sys2Proof.Machine

/-! ### The end of a run (40_sequencer R97) -/

/-- A normal end: Halted with no fault (10_state R32). -/
def State.normalEnd (s : State) : Bool := s.run == .halted && s.fault.isNone

/-- A failed end: Halted with a fault. -/
def State.failedEnd (s : State) : Bool := s.run == .halted && s.fault.isSome

/-- A run's observable result: the final state's registers, PC, FL, memory and fault record, and the output events. -/
structure Observation where
  regs  : Vector Byte 8
  pc    : Byte
  fl    : Flags
  mem   : Memory
  fault : Option FaultRecord
  out   : List Byte
  deriving DecidableEq, Repr

/-- What the host reads of a state (00_scope R16, 60_exceptions R176). -/
def State.observe (s : State) : Observation := ⟨s.regs, s.pc, s.fl, s.mem, s.fault, s.out⟩

/-! ### Frames -/

/-- Every general register outside `l` holds what it held. -/
def SameRegsBut (l : List (Fin 8)) (s t : State) : Prop := ∀ i, i ∉ l → t.reg i = s.reg i

/-- Every byte of memory reads as before. -/
def SameMem (s t : State) : Prop := ∀ a, t.mem.read a = s.mem.read a

/-- Every byte of memory but the one at `a` reads as before. -/
def SameMemBut (a : Nat) (s t : State) : Prop := ∀ b, b ≠ a → t.mem.read b = s.mem.read b

/-- The run state, the fault record and the configuration are unchanged. -/
def SameControl (s t : State) : Prop := t.run = s.run ∧ t.fault = s.fault ∧ t.extAlu = s.extAlu

/-- Only PC and the registers in `l` may have changed. -/
def OnlyRegs (l : List (Fin 8)) (s t : State) : Prop :=
  SameRegsBut l s t ∧ SameMem s t ∧ t.fl = s.fl ∧ t.out = s.out ∧ SameControl s t

/-- Exactly an error was raised: the fault record is `f` and the core is Halted, and registers, FL, memory, PC and the output
events are unchanged (60_exceptions R166, 40_sequencer R93). -/
def Raised (s t : State) (f : FaultRecord) : Prop :=
  t.fault = some f ∧ t.run = .halted ∧ SameRegsBut [] s t ∧ SameMem s t ∧ t.pc = s.pc ∧ t.fl = s.fl ∧ t.out = s.out ∧
    t.extAlu = s.extAlu

/-! ### The invariant -/

/-- A fault record the machine can hold: the info of 60_exceptions R177 for its cause, and never the ALU's failure, which no
program reaches (R164). The AddressError's info is always 256 (R161). -/
def FaultRecord.legal (ext : Bool) (f : FaultRecord) : Bool :=
  match f.cause with
  | .addressError              => f.info == 256
  | .registerIndexError        => decide (8 ≤ f.info) && decide (f.info < 256)
  | .unsupportedOperationError => false
  | .unknownInstructionError   => decide (f.info < 256) && (lookup ext (BitVec.ofNat 8 f.info)).isNone
  | .programLoadError          => f.info == 0

/-- At most one of E, L and G is set: none before the first CMP, exactly one after it (10_state R28, R37). -/
def Flags.atMostOne (f : Flags) : Bool := !(f.e && f.l) && !(f.e && f.g) && !(f.l && f.g)

/-- What holds of the machine at reset and after every step: memory in canonical form with no cell past 255, at most one flag,
and a fault record only in a Halted machine and only a legal one. -/
structure Inv (s : State) : Prop where
  mem_wf       : s.mem.wf = true
  fl_one       : s.fl.atMostOne = true
  fault_halted : s.fault ≠ none → s.run = .halted
  fault_legal  : ∀ f, s.fault = some f → f.legal s.extAlu = true

end Sys2Proof.Machine

namespace Sys2Proof

open Sys2Proof.Machine

/-! ### What an instruction may write, and how far it advances -/

/-- The registers an instruction may write, by its operand bytes: the table of 10_state R24. -/
def Instr.regWrites : Instr → List Byte
  | .ldi ra _ | .add ra _ | .mul ra _ | .sub ra _ | .and ra _ | .or ra _ | .xor ra _ => [ra]
  | .pop ra                      => [ra, 7]
  | .push _ | .call _ | .ret     => [7]
  | .prn _ | .hlt | .cmp _ _ | .jmp _ | .jeq _ | .jne _ => []

/-- The address an instruction stores to: the table of 20_memory R48, the slot the decremented SP names. -/
def Instr.storeAddr (i : Instr) (s : State) : Option Nat :=
  match i with
  | .push _ | .call _ => some s.decSp.sp.toNat
  | .ldi _ _ | .prn _ | .hlt | .add _ _ | .mul _ _ | .cmp _ _ | .pop _ | .ret | .jmp _ | .jeq _ | .jne _
  | .sub _ _ | .and _ _ | .or _ _ | .xor _ _ => none

/-- The length by which an instruction advances PC, where it advances sequentially: the list of 40_sequencer R87. -/
def Instr.seqLength (i : Instr) (s : State) : Option Nat :=
  match i with
  | .ldi _ _ | .add _ _ | .mul _ _ | .cmp _ _ | .sub _ _ | .and _ _ | .or _ _ | .xor _ _ => some 3
  | .prn _ | .push _ | .pop _ => some 2
  | .jeq _ => if s.fl.e then none else some 2
  | .jne _ => if s.fl.e then some 2 else none
  | .hlt | .call _ | .ret | .jmp _ => none

end Sys2Proof
end

