-- ==== Sys2Proof/Certificates/Slice0/Obligations.lean ====
section
/-! DEFINITION. The statements for the provers, each with the rules of spec/ it comes from. A register operand is a byte `ra`
with `ha : ra.toNat < 8`, and the register it names is `⟨ra.toNat, ha⟩`. -/

open Sys2Proof Sys2Proof.Machine

/-! ### Encoding (30_encoding) -/

/-- Words written out from the map of 30_encoding R67 and the examples of files 41 to 44 decode to their instructions. The
opcode values are the spec's general knowledge (D1, log entry 4). -/
def Obligations.SpecWordsDecode : Prop :=
  decode false ⟨0b10000010, 0x00, 0x08⟩ = .known (.ldi 0 8) ∧
  decode false ⟨0b01000111, 0x07, 0x01⟩ = .known (.prn 7) ∧
  decode false ⟨0b00000001, 0x08, 0xFF⟩ = .known .hlt ∧
  decode false ⟨0b10100000, 0x00, 0x01⟩ = .known (.add 0 1) ∧
  decode false ⟨0b10100111, 0x00, 0x02⟩ = .known (.cmp 0 2) ∧
  decode false ⟨0b01000101, 0x07, 0x00⟩ = .known (.push 7) ∧
  decode false ⟨0b01000110, 0x01, 0x00⟩ = .known (.pop 1) ∧
  decode false ⟨0b01010000, 0x01, 0x46⟩ = .known (.call 1) ∧
  decode false ⟨0b00010001, 0x00, 0x00⟩ = .known .ret ∧
  decode false ⟨0b01010101, 0x02, 0x01⟩ = .known (.jeq 2) ∧
  decode true ⟨0b10100001, 0x00, 0x01⟩ = .known (.sub 0 1) ∧
  decode false ⟨0b10100001, 0x00, 0x01⟩ = .unknownInstruction 0xA1 ∧
  decode true ⟨0b00000000, 0x00, 0x00⟩ = .unknownInstruction 0x00

/-- Decoding an instruction's encoding gives it back, for every instruction of the configured map and every operand byte,
whatever bytes follow it (30_encoding R60, R64, R67, R70). -/
def Obligations.DecodeEncodeRoundTrip : Prop :=
  ∀ (ext : Bool) (i : Instr) (p q : Byte), i.available ext = true →
    decode ext (Latches.ofBytes (encode i ++ [p, q])) = .known i

/-- What is decoded is what the bytes say: its encoding is the bytes at PC, and it is in the configured map
(30_encoding R60, R64, R67). -/
def Obligations.DecodedInstructionIsItsBytes : Prop :=
  ∀ (ext : Bool) (l : Latches) (i : Instr), decode ext l = .known i →
    i.available ext = true ∧ ∃ rest, encode i ++ rest = [l.ir, l.op1, l.op2]

/-- The length is 1 + IR[7:6], told by the first byte alone, and 0xC0 to 0xFF are unknown (30_encoding R61). -/
def Obligations.InstructionLengthIsInTheOpcode : Prop :=
  (∀ (ext : Bool) (l : Latches) (i : Instr), decode ext l = .known i → (encode i).length = 1 + l.ir.toNat / 64) ∧
  (∀ (ext : Bool) (l : Latches), 0xC0 ≤ l.ir.toNat → decode ext l = .unknownInstruction l.ir)

/-- 243 of the 256 byte values are unknown with EXT_ALU = false and 239 with true, 0x00 among them (30_encoding R69). -/
def Obligations.UnknownOpcodeCount : Prop :=
  ((List.range 256).filter fun n => (lookup false (BitVec.ofNat 8 n)).isNone).length = 243 ∧
  ((List.range 256).filter fun n => (lookup true (BitVec.ofNat 8 n)).isNone).length = 239 ∧
  lookup false 0 = none ∧ lookup true 0 = none

/-- The decoder's outputs for every opcode byte, unknown ones included; `known` is what decoding does (30_encoding R62, R63).
The positions of the ALU and sets-PC bits are the spec's general knowledge (G3, log entry 4). -/
def Obligations.DecoderOutputs : Prop :=
  ∀ (ext : Bool) (ir a b : Byte),
    (decodeOpcode ext ir).operandCount = ir.toNat / 64 ∧
    ((decodeOpcode ext ir).isAluOp = true ↔ ir.toNat / 32 % 2 = 1) ∧
    ((decodeOpcode ext ir).setsPc = true ↔ ir.toNat / 16 % 2 = 1) ∧
    ((decodeOpcode ext ir).known = true ↔ ∃ i, decode ext ⟨ir, a, b⟩ = .known i)

/-! ### The step (40_sequencer, 60_exceptions) -/

/-- While Running below address 254, a step runs the instruction the three bytes at PC decode to (40_sequencer R84, R86, R96).
The step adds nothing around `exec`: the operand check and the advance are in each instruction's rule. -/
def Obligations.StepRunsDecodedInstruction : Prop :=
  ∀ (s : State) (i : Instr), s.run = .running → s.pc.toNat ≤ 253 →
    decode s.extAlu ⟨s.mem.read s.pc.toNat, s.mem.read (s.pc.toNat + 1), s.mem.read (s.pc.toNat + 2)⟩ = .known i →
    step s = exec i s

/-- At 254 and 255 the prefetch raises AddressError(256) before decode, whatever the opcode, HLT included, and nothing else
changes (40_sequencer R82, R93). The spec's own decision D5 (log entry 9). -/
def Obligations.PrefetchPastTopRaises : Prop :=
  ∀ s : State, s.run = .running → 254 ≤ s.pc.toNat → ∃ t, step s = .next t ∧ Raised s t ⟨.addressError, 256⟩

/-- UnknownInstructionError, code 4: raised, with the opcode byte as info and nothing else changed, exactly where the prefetch
succeeds and the byte is not in the configured map (60_exceptions R162). -/
def Obligations.UnknownOpcodeRaises : Prop :=
  Cause.code .unknownInstructionError = 4 ∧
  (∀ s : State, s.run = .running → s.pc.toNat ≤ 253 →
    (∀ m, configured s.extAlu m = true → opcodeOf m ≠ s.mem.read s.pc.toNat) →
    ∃ t, step s = .next t ∧ Raised s t ⟨.unknownInstructionError, (s.mem.read s.pc.toNat).toNat⟩) ∧
  (∀ (s t : State) (n : Nat), s.run = .running → s.fault = none → step s = .next t →
    t.fault = some ⟨.unknownInstructionError, n⟩ →
    s.pc.toNat ≤ 253 ∧ n = (s.mem.read s.pc.toNat).toNat ∧
      ∀ m, configured s.extAlu m = true → opcodeOf m ≠ s.mem.read s.pc.toNat)

/-- With EXT_ALU = false the four extension opcodes raise UnknownInstructionError and change nothing else
(42_alu R120 to R123, 30_encoding R69, 00_scope R4; the opcodes are general knowledge, log entry 4). -/
def Obligations.ExtensionOpcodesUnknownWhenOff : Prop :=
  ∀ s : State, s.run = .running → s.pc.toNat ≤ 253 → s.extAlu = false →
    ∀ b ∈ ([0xA1, 0xA8, 0xAA, 0xAB] : List Byte), s.mem.read s.pc.toNat = b →
      ∃ t, step s = .next t ∧ Raised s t ⟨.unknownInstructionError, b.toNat⟩

/-- RegisterIndexError, code 2: every instruction of format F1R, F2RI or F2RR with a register operand byte of 8 or more raises
it, with such a byte as info, and changes nothing else; F0 has no register operand (60_exceptions R163). -/
def Obligations.BadRegisterOperandRaises : Prop :=
  Cause.code .registerIndexError = 2 ∧
  (∀ i : Instr, i.regOperands = [] ↔ (opcodeRow i.op).format = .f0) ∧
  (∀ (i : Instr) (s : State), (∃ b ∈ i.regOperands, 8 ≤ b.toNat) →
    ∃ b ∈ i.regOperands, 8 ≤ b.toNat ∧ ∃ t, exec i s = .next t ∧ Raised s t ⟨.registerIndexError, b.toNat⟩)

/-- The priority of errors in one step: prefetch, dispatch, operand 1, operand 2, sequential advance, and no error otherwise
(60_exceptions R168, 40_sequencer R85, R88). The spec's own decisions D7, D15 (log entry 9). -/
def Obligations.ErrorPriority : Prop :=
  ∀ s t : State, s.run = .running → s.fault = none → step s = .next t →
    (254 ≤ s.pc.toNat → t.fault = some ⟨.addressError, 256⟩) ∧
    (s.pc.toNat ≤ 253 →
      ∀ l, l = (⟨s.mem.read s.pc.toNat, s.mem.read (s.pc.toNat + 1), s.mem.read (s.pc.toNat + 2)⟩ : Latches) →
        (∀ op, decode s.extAlu l = .unknownInstruction op → t.fault = some ⟨.unknownInstructionError, op.toNat⟩) ∧
        (∀ i, decode s.extAlu l = .known i →
          (∀ pre b post, i.regOperands = pre ++ b :: post → (∀ x ∈ pre, x.toNat < 8) → 8 ≤ b.toNat →
            t.fault = some ⟨.registerIndexError, b.toNat⟩) ∧
          ((∀ x ∈ i.regOperands, x.toNat < 8) →
            t.fault = if s.pc.toNat = 253 ∧ (encode i).length = 3 then some ⟨.addressError, 256⟩ else none)))

/-- Every step answers a next state: the next state is a function of the state (EXT_ALU in it) and nothing is left open
(40_sequencer R98). That a fatal error and a Halted machine answer a next state is the model's choice (log entries 5, 6). -/
def Obligations.EveryStepCompletes : Prop := ∀ s : State, ∃ t, step s = .next t

/-- A Halted machine stays as it is for good, for any number of steps (40_sequencer R81, 60_exceptions R169). That it answers
itself is the model's choice (log entry 5). -/
def Obligations.HaltedStaysForGood : Prop :=
  ∀ (s : State) (k : Nat), s.run = .halted → core.run k s = .next s

/-- A running machine halts exactly by HLT or by a fatal error, and ends normally exactly by HLT (10_state R31, R32,
40_sequencer R97, 41_data_io R102). HLT's opcode 0x01 is the spec's general knowledge (30_encoding R67; D1, log entry 4), and the
limit 253 is the spec's own decision D5 (40_sequencer R82, log entry 9). -/
def Obligations.NormalEndOnlyByHlt : Prop :=
  ∀ s t : State, s.run = .running → s.fault = none → step s = .next t →
    (t.normalEnd = true ↔ s.pc.toNat ≤ 253 ∧ s.mem.read s.pc.toNat = 0x01) ∧
    (t.run = .halted ↔ t.fault ≠ none ∨ (s.pc.toNat ≤ 253 ∧ s.mem.read s.pc.toNat = 0x01))

/-! ### Reset, load and launch (70_reset, 10_state R37) -/

/-- Launch sets SP to 244 and changes no other register, and SP is 244 before the first instruction of every program that fits
(70_reset R182). -/
def Obligations.LaunchSetsStackPointer : Prop :=
  (∀ s : State, s.fault = none → s.launch.reg 7 = 244 ∧ SameRegsBut [7] s s.launch) ∧
  (∀ (ext : Bool) (p : List Byte), p.length ≤ 256 → (boot ext (some p)).reg 7 = 244)

/-- State.reset is the launch state of 10_state R37 with nothing loaded. FL = 0 is the spec's own decision D10 (log entry 2),
memory 0 is D11 (log entry 3). -/
def Obligations.ResetIsTheLaunchState : Prop :=
  State.reset.run = .running ∧ State.reset.pc = 0 ∧ State.reset.sp = 244 ∧
  (∀ j : Fin 8, j ≠ 7 → State.reset.reg j = 0) ∧ State.reset.fl.byte = 0 ∧ State.reset.fault = none ∧
  State.reset.out = [] ∧ (∀ a, State.reset.mem.read a = 0) ∧ State.reset.extAlu = false ∧
  boot false (some []) = State.reset

/-- A program of at most 256 bytes is in memory from address 0, 0 past its end, and the machine is launched as the table of
10_state R37 says (70_reset R180 to R183). The zeros and FL are the spec's own decisions D10, D11 (log entries 2, 3). -/
def Obligations.LoadedProgramIsInMemory : Prop :=
  ∀ (ext : Bool) (p : List Byte), p.length ≤ 256 →
    (∀ a, a < 256 → (boot ext (some p)).mem.read a = p.getD a 0) ∧
    (∀ j : Fin 8, j ≠ 7 → (boot ext (some p)).reg j = 0) ∧
    (boot ext (some p)).run = .running ∧ (boot ext (some p)).fault = none ∧ (boot ext (some p)).pc = 0 ∧
    (boot ext (some p)).fl = ⟨false, false, false⟩ ∧ (boot ext (some p)).out = [] ∧ (boot ext (some p)).extAlu = ext

/-- A program of more than 256 bytes raises AddressError(256) at load and never launches: no number of steps changes anything
(70_reset R181, 60_exceptions R161). The spec's own decision D12 (log entry 8). -/
def Obligations.LongProgramNeverLaunches : Prop :=
  ∀ (ext : Bool) (p : List Byte), 256 < p.length →
    (boot ext (some p)).run = .halted ∧ (boot ext (some p)).fault = some ⟨.addressError, 256⟩ ∧
    ∀ k, core.run k (boot ext (some p)) = .next (boot ext (some p))

/-- Where the external loader fails, nothing reaches the core, ProgramLoadError (code 5, info 0) is recorded, and the machine
never runs (60_exceptions R165, R177). That the record is the core's own is the model's reading (log entry 8); that the memory reads
0 is the creation value (70_reset R180), the spec's own decision D11 (log entry 3). -/
def Obligations.FailedLoadNeverLaunches : Prop :=
  Cause.code .programLoadError = 5 ∧
  ∀ ext : Bool, (boot ext none).run = .halted ∧ (boot ext none).fault = some ⟨.programLoadError, 0⟩ ∧
    (∀ a, (boot ext none).mem.read a = 0) ∧ ∀ k, core.run k (boot ext none) = .next (boot ext none)

/-! ### The instructions: what each does, where it completes, and its frame -/

/-- LDI (41_data_io R100, 40_sequencer R87, R88). -/
def Obligations.LdiStoresImmediate : Prop :=
  ∀ (s : State) (ra imm : Byte) (ha : ra.toNat < 8), s.pc.toNat + 3 ≤ 255 →
    ∃ t, exec (.ldi ra imm) s = .next t ∧ t.reg ⟨ra.toNat, ha⟩ = imm ∧ t.pc.toNat = s.pc.toNat + 3 ∧
      OnlyRegs [⟨ra.toNat, ha⟩] s t

/-- PRN (41_data_io R101, 10_state R33). -/
def Obligations.PrnEmitsRegister : Prop :=
  ∀ (s : State) (ra : Byte) (ha : ra.toNat < 8), s.pc.toNat + 2 ≤ 255 →
    ∃ t, exec (.prn ra) s = .next t ∧ t.out = s.out ++ [s.reg ⟨ra.toNat, ha⟩] ∧ t.pc.toNat = s.pc.toNat + 2 ∧
      SameRegsBut [] s t ∧ SameMem s t ∧ t.fl = s.fl ∧ SameControl s t

/-- HLT: Halted, PC keeps the address of the HLT, nothing else changes (40_sequencer R90; 41_data_io R102). -/
def Obligations.HltHaltsInPlace : Prop :=
  ∀ s : State, ∃ t, exec .hlt s = .next t ∧ t.run = .halted ∧ t.pc = s.pc ∧ t.fault = s.fault ∧
    SameRegsBut [] s t ∧ SameMem s t ∧ t.fl = s.fl ∧ t.out = s.out ∧ t.extAlu = s.extAlu

/-- ADD (42_alu R113, R116). -/
def Obligations.AddWraps : Prop :=
  ∀ (s : State) (ra rb : Byte) (ha : ra.toNat < 8) (hb : rb.toNat < 8), s.pc.toNat + 3 ≤ 255 →
    ∃ t, exec (.add ra rb) s = .next t ∧
      (t.reg ⟨ra.toNat, ha⟩).toNat = ((s.reg ⟨ra.toNat, ha⟩).toNat + (s.reg ⟨rb.toNat, hb⟩).toNat) % 256 ∧
      t.pc.toNat = s.pc.toNat + 3 ∧ OnlyRegs [⟨ra.toNat, ha⟩] s t

/-- MUL (42_alu R114, R117). -/
def Obligations.MulKeepsLowByte : Prop :=
  ∀ (s : State) (ra rb : Byte) (ha : ra.toNat < 8) (hb : rb.toNat < 8), s.pc.toNat + 3 ≤ 255 →
    ∃ t, exec (.mul ra rb) s = .next t ∧
      (t.reg ⟨ra.toNat, ha⟩).toNat = ((s.reg ⟨ra.toNat, ha⟩).toNat * (s.reg ⟨rb.toNat, hb⟩).toNat) % 256 ∧
      t.pc.toNat = s.pc.toNat + 3 ∧ OnlyRegs [⟨ra.toNat, ha⟩] s t

/-- CMP: the three bits, unsigned, and the register's byte in the layout of 10_state R27 (42_alu R115, R118; the layout is
general knowledge, log entry 4). No general register and no memory is written. -/
def Obligations.CmpSetsFlags : Prop :=
  ∀ (s : State) (ra rb : Byte) (ha : ra.toNat < 8) (hb : rb.toNat < 8), s.pc.toNat + 3 ≤ 255 →
    ∃ t, exec (.cmp ra rb) s = .next t ∧
      (t.fl.e = true ↔ s.reg ⟨ra.toNat, ha⟩ = s.reg ⟨rb.toNat, hb⟩) ∧
      (t.fl.l = true ↔ (s.reg ⟨ra.toNat, ha⟩).toNat < (s.reg ⟨rb.toNat, hb⟩).toNat) ∧
      (t.fl.g = true ↔ (s.reg ⟨rb.toNat, hb⟩).toNat < (s.reg ⟨ra.toNat, ha⟩).toNat) ∧
      t.fl.byte = (if s.reg ⟨ra.toNat, ha⟩ = s.reg ⟨rb.toNat, hb⟩ then 0b001
        else if (s.reg ⟨ra.toNat, ha⟩).toNat < (s.reg ⟨rb.toNat, hb⟩).toNat then 0b100 else 0b010) ∧
      t.pc.toNat = s.pc.toNat + 3 ∧ SameRegsBut [] s t ∧ SameMem s t ∧ t.out = s.out ∧ SameControl s t

/-- SUB with EXT_ALU = true (42_alu R120; general knowledge, log entry 4). -/
def Obligations.SubWraps : Prop :=
  ∀ (s : State) (ra rb : Byte) (ha : ra.toNat < 8) (hb : rb.toNat < 8), s.extAlu = true → s.pc.toNat + 3 ≤ 255 →
    ∃ t, exec (.sub ra rb) s = .next t ∧
      (t.reg ⟨ra.toNat, ha⟩).toNat = ((s.reg ⟨ra.toNat, ha⟩).toNat + 256 - (s.reg ⟨rb.toNat, hb⟩).toNat) % 256 ∧
      t.pc.toNat = s.pc.toNat + 3 ∧ OnlyRegs [⟨ra.toNat, ha⟩] s t

/-- AND, OR and XOR with EXT_ALU = true, bit by bit (42_alu R121 to R123; general knowledge, log entry 4). -/
def Obligations.BitwiseOperations : Prop :=
  ∀ (s : State) (ra rb : Byte) (ha : ra.toNat < 8) (hb : rb.toNat < 8), s.extAlu = true → s.pc.toNat + 3 ≤ 255 →
    (∃ t, exec (.and ra rb) s = .next t ∧
      (∀ k, (t.reg ⟨ra.toNat, ha⟩).getLsbD k =
        ((s.reg ⟨ra.toNat, ha⟩).getLsbD k && (s.reg ⟨rb.toNat, hb⟩).getLsbD k)) ∧
      t.pc.toNat = s.pc.toNat + 3 ∧ OnlyRegs [⟨ra.toNat, ha⟩] s t) ∧
    (∃ t, exec (.or ra rb) s = .next t ∧
      (∀ k, (t.reg ⟨ra.toNat, ha⟩).getLsbD k =
        ((s.reg ⟨ra.toNat, ha⟩).getLsbD k || (s.reg ⟨rb.toNat, hb⟩).getLsbD k)) ∧
      t.pc.toNat = s.pc.toNat + 3 ∧ OnlyRegs [⟨ra.toNat, ha⟩] s t) ∧
    (∃ t, exec (.xor ra rb) s = .next t ∧
      (∀ k, (t.reg ⟨ra.toNat, ha⟩).getLsbD k =
        ((s.reg ⟨ra.toNat, ha⟩).getLsbD k != (s.reg ⟨rb.toNat, hb⟩).getLsbD k)) ∧
      t.pc.toNat = s.pc.toNat + 3 ∧ OnlyRegs [⟨ra.toNat, ha⟩] s t)

/-- PUSH: SP is decremented modulo 256, the register AS IT THEN STANDS is stored at the new SP, and no other byte of memory
changes; PUSH R7 stores the decremented SP (43_stack R131, 40_sequencer R92; D9, log entry 9). -/
def Obligations.PushStoresBelowTop : Prop :=
  ∀ (s : State) (ra : Byte) (ha : ra.toNat < 8), s.pc.toNat + 2 ≤ 255 →
    ∃ t, exec (.push ra) s = .next t ∧ t.sp.toNat = (s.sp.toNat + 255) % 256 ∧
      t.mem.read (s.sp - 1).toNat = (if ra.toNat = 7 then s.sp - 1 else s.reg ⟨ra.toNat, ha⟩) ∧
      SameMemBut (s.sp - 1).toNat s t ∧ t.pc.toNat = s.pc.toNat + 2 ∧ SameRegsBut [7] s t ∧ t.fl = s.fl ∧
      t.out = s.out ∧ SameControl s t

/-- POP: the byte at SP goes into the register, then SP is incremented modulo 256; POP R7 leaves the byte plus 1
(43_stack R132, 40_sequencer R92; D9, log entry 9). -/
def Obligations.PopLoadsTop : Prop :=
  ∀ (s : State) (ra : Byte) (ha : ra.toNat < 8), s.pc.toNat + 2 ≤ 255 →
    ∃ t, exec (.pop ra) s = .next t ∧
      (ra.toNat ≠ 7 → t.reg ⟨ra.toNat, ha⟩ = s.mem.read s.sp.toNat ∧ t.sp.toNat = (s.sp.toNat + 1) % 256) ∧
      (ra.toNat = 7 → t.sp.toNat = ((s.mem.read s.sp.toNat).toNat + 1) % 256) ∧
      t.pc.toNat = s.pc.toNat + 2 ∧ OnlyRegs [⟨ra.toNat, ha⟩, 7] s t

/-- CALL: PC + 2 is pushed, and PC is the register as it stands after the decrement; CALL R7 jumps to the new SP
(44_control R141, 40_sequencer R89; D9, log entry 9). PC is at most 253 when CALL runs (40_sequencer R82). -/
def Obligations.CallPushesReturnAddress : Prop :=
  ∀ (s : State) (ra : Byte) (ha : ra.toNat < 8), s.pc.toNat ≤ 253 →
    ∃ t, exec (.call ra) s = .next t ∧ t.sp.toNat = (s.sp.toNat + 255) % 256 ∧
      (t.mem.read (s.sp - 1).toNat).toNat = s.pc.toNat + 2 ∧ SameMemBut (s.sp - 1).toNat s t ∧
      t.pc = (if ra.toNat = 7 then s.sp - 1 else s.reg ⟨ra.toNat, ha⟩) ∧
      SameRegsBut [7] s t ∧ t.fl = s.fl ∧ t.out = s.out ∧ SameControl s t

/-- RET, in every state (44_control R142, 40_sequencer R89). -/
def Obligations.RetPopsTarget : Prop :=
  ∀ s : State, ∃ t, exec .ret s = .next t ∧ t.pc = s.mem.read s.sp.toNat ∧ t.sp.toNat = (s.sp.toNat + 1) % 256 ∧
    OnlyRegs [7] s t

/-- JMP, to any target and from any PC (44_control R140, R143). -/
def Obligations.JmpSetsPc : Prop :=
  ∀ (s : State) (ra : Byte) (ha : ra.toNat < 8),
    ∃ t, exec (.jmp ra) s = .next t ∧ t.pc = s.reg ⟨ra.toNat, ha⟩ ∧ OnlyRegs [] s t

/-- JEQ: taken exactly where E is set, the other flags of no effect (44_control R144, R147). -/
def Obligations.JeqBranchesOnEqual : Prop :=
  ∀ (s : State) (ra : Byte) (ha : ra.toNat < 8),
    (s.fl.e = true → ∃ t, exec (.jeq ra) s = .next t ∧ t.pc = s.reg ⟨ra.toNat, ha⟩ ∧ OnlyRegs [] s t) ∧
    (s.fl.e = false → s.pc.toNat + 2 ≤ 255 →
      ∃ t, exec (.jeq ra) s = .next t ∧ t.pc.toNat = s.pc.toNat + 2 ∧ OnlyRegs [] s t)

/-- JNE: taken exactly where E is clear (44_control R145, R147). -/
def Obligations.JneBranchesOnNotEqual : Prop :=
  ∀ (s : State) (ra : Byte) (ha : ra.toNat < 8),
    (s.fl.e = false → ∃ t, exec (.jne ra) s = .next t ∧ t.pc = s.reg ⟨ra.toNat, ha⟩ ∧ OnlyRegs [] s t) ∧
    (s.fl.e = true → s.pc.toNat + 2 ≤ 255 →
      ∃ t, exec (.jne ra) s = .next t ∧ t.pc.toNat = s.pc.toNat + 2 ∧ OnlyRegs [] s t)

/-- The ALU's three base operations, in every configuration (42_alu R113, R114, R115). -/
def Obligations.AluBaseOperations : Prop :=
  ∀ (ext : Bool) (a b : Byte),
    (∃ v, aluApply ext .add a b = some (.byte v) ∧ v.toNat = (a.toNat + b.toNat) % 256) ∧
    (∃ v, aluApply ext .mul a b = some (.byte v) ∧ v.toNat = (a.toNat * b.toNat) % 256) ∧
    (∃ f, aluApply ext .cmp a b = some (.flags f) ∧ (f.e = true ↔ a = b) ∧ (f.l = true ↔ a.toNat < b.toNat) ∧
      (f.g = true ↔ b.toNat < a.toNat) ∧ [f.e, f.l, f.g].count true = 1)

/-- A 3-byte instruction at 253 makes the writes it makes elsewhere, then raises AddressError(256), PC still naming it
(40_sequencer R88, 60_exceptions R167). The spec's own decision D6 (log entry 9). -/
def Obligations.AdvancePastTopKeepsWrites : Prop :=
  ∀ (i : Instr) (s u : State), WellFormed s.extAlu i = true → (encode i).length = 3 → s.pc.toNat = 253 →
    exec i (s.setPc 0) = .next u →
    ∃ t, exec i s = .next t ∧ t.fault = some ⟨.addressError, 256⟩ ∧ t.run = .halted ∧ t.pc = s.pc ∧
      t.regs = u.regs ∧ t.fl = u.fl ∧ t.mem = u.mem ∧ t.out = u.out

/-- An extension operation given to an ALU without it raises UnsupportedOperationError with the driving instruction's opcode,
and nothing else changes (42_alu R112, 60_exceptions R164). No step reaches it; where `exec` puts it is the model's reading
(log entry 12). -/
def Obligations.UnconfiguredAluRaises : Prop :=
  ∀ (s : State) (ra rb : Byte), ra.toNat < 8 → rb.toNat < 8 → s.extAlu = false →
    ∀ i ∈ [Instr.sub ra rb, Instr.and ra rb, Instr.or ra rb, Instr.xor ra rb],
      ∃ t, exec i s = .next t ∧ Raised s t ⟨.unsupportedOperationError, (opcodeOf i.op).toNat⟩

/-- No program raises UnsupportedOperationError, in any configuration: a step never records it anew (60_exceptions R164,
42_alu R112; D20). -/
def Obligations.NoProgramRaisesUnsupported : Prop :=
  ∀ (s t : State) (f : FaultRecord), step s = .next t → t.fault = some f → f.cause = .unsupportedOperationError →
    s.fault = some f

/-! ### What holds of every instruction -/

/-- FL is written only by CMP, which writes all three bits whatever they were: exactly one is set, the one that tells how the two
registers compare (10_state R28). -/
def Obligations.OnlyCmpWritesFlags : Prop :=
  (∀ (i : Instr) (s t : State), (∀ ra rb, i ≠ .cmp ra rb) → exec i s = .next t → t.fl = s.fl) ∧
  (∀ (s : State) (f : Flags) (ra rb : Byte) (ha : ra.toNat < 8) (hb : rb.toNat < 8),
    ∃ t u, exec (.cmp ra rb) s = .next t ∧ exec (.cmp ra rb) (s.setFl f) = .next u ∧ u.fl = t.fl ∧
      [t.fl.e, t.fl.l, t.fl.g].count true = 1 ∧
      (t.fl.e = true ↔ s.reg ⟨ra.toNat, ha⟩ = s.reg ⟨rb.toNat, hb⟩) ∧
      (t.fl.l = true ↔ (s.reg ⟨ra.toNat, ha⟩).toNat < (s.reg ⟨rb.toNat, hb⟩).toNat) ∧
      (t.fl.g = true ↔ (s.reg ⟨rb.toNat, hb⟩).toNat < (s.reg ⟨ra.toNat, ha⟩).toNat))

/-- FL is read only by JEQ and JNE, which test E: changing FL under any other instruction, or changing it but for E under any
instruction, changes nothing but FL in the next state, and E alone tells where JEQ and JNE go. L and G are written by CMP and read
by none (10_state R29). -/
def Obligations.FlagsReadOnlyByBranches : Prop :=
  (∀ (i : Instr) (s t : State) (f : Flags), exec i s = .next t →
    ((∀ ra, i ≠ .jeq ra) ∧ (∀ ra, i ≠ .jne ra)) ∨ f.e = s.fl.e →
    ∃ u, exec i (s.setFl f) = .next u ∧ u.setFl t.fl = t) ∧
  (∀ (s : State) (ra : Byte) (ha : ra.toNat < 8), s.pc.toNat + 2 ≤ 255 →
    (∃ t, exec (.jeq ra) s = .next t ∧ t.pc = if s.fl.e then s.reg ⟨ra.toNat, ha⟩ else s.pc + 2) ∧
    (∃ t, exec (.jne ra) s = .next t ∧ t.pc = if s.fl.e then s.pc + 2 else s.reg ⟨ra.toNat, ha⟩)) ∧
  (∀ (s : State) (ra rb : Byte) (ha : ra.toNat < 8) (hb : rb.toNat < 8),
    ∃ t, exec (.cmp ra rb) s = .next t ∧
      (t.fl.l = true ↔ (s.reg ⟨ra.toNat, ha⟩).toNat < (s.reg ⟨rb.toNat, hb⟩).toNat) ∧
      (t.fl.g = true ↔ (s.reg ⟨rb.toNat, hb⟩).toNat < (s.reg ⟨ra.toNat, ha⟩).toNat))

/-- The output events are empty at reset, and a step appends to them exactly where it runs a PRN of a register, the value of
that register (10_state R33, 41_data_io R101). The limit 253 is the spec's own decision D5 (log entry 9). -/
def Obligations.OnlyPrnEmits : Prop :=
  State.reset.out = [] ∧
  ∀ s t : State, step s = .next t →
    (∀ (ra : Byte) (ha : ra.toNat < 8), s.run = .running → s.pc.toNat ≤ 253 →
      decode s.extAlu ⟨s.mem.read s.pc.toNat, s.mem.read (s.pc.toNat + 1), s.mem.read (s.pc.toNat + 2)⟩ = .known (.prn ra) →
      t.out = s.out ++ [s.reg ⟨ra.toNat, ha⟩]) ∧
    (t.out ≠ s.out → s.run = .running ∧ s.pc.toNat ≤ 253 ∧ ∃ (ra : Byte) (_ : ra.toNat < 8),
      decode s.extAlu ⟨s.mem.read s.pc.toNat, s.mem.read (s.pc.toNat + 1), s.mem.read (s.pc.toNat + 2)⟩ = .known (.prn ra))

/-- The frame of the general registers: an instruction changes only those the table of 10_state R24 gives it, whether it
completes or raises. -/
def Obligations.GeneralRegisterFrame : Prop :=
  ∀ (i : Instr) (s t : State) (j : Fin 8), exec i s = .next t → (∀ b ∈ i.regWrites, b.toNat ≠ j.val) → t.reg j = s.reg j

/-- SP changes in exactly these ways during a run: PUSH and CALL subtract 1, RET and a POP of another register add 1, and an
instruction whose destination is register 7 writes it (40_sequencer R91, R92). -/
def Obligations.StackPointerChanges : Prop :=
  ∀ (i : Instr) (s t : State), exec i s = .next t → t.sp ≠ s.sp →
    ((∃ ra, i = .push ra ∨ i = .call ra) ∧ t.sp = s.sp - 1) ∨
    ((i = .ret ∨ ∃ ra, i = .pop ra ∧ ra ≠ 7) ∧ t.sp = s.sp + 1) ∨
    (i.op ∈ [Op.ldi, .add, .mul, .pop, .sub, .and, .or, .xor] ∧ i.operands.head? = some 7)

/-- The frame of memory: only PUSH and CALL store, and only at the slot the decremented SP names; every other byte reads as
before, whether the instruction completes or raises (20_memory R44, R48). -/
def Obligations.MemoryFrame : Prop :=
  ∀ (i : Instr) (s t : State) (a : Nat), exec i s = .next t → i.storeAddr s ≠ some a → t.mem.read a = s.mem.read a

/-- EXT_ALU is fixed for a run (10_state R36, 00_scope R4). That it stands in State is the model's choice (log entry 1). -/
def Obligations.ConfigurationFixedForARun : Prop :=
  ∀ (k : Nat) (s t : State), core.run k s = .next t → t.extAlu = s.extAlu

/-- The sequential advance: 3 for LDI, ADD, MUL, CMP and the extension, 2 for PRN, PUSH, POP and for JEQ, JNE not taken, which
is operand_count + 1; inside memory such an instruction completes (40_sequencer R87). -/
def Obligations.SequentialAdvance : Prop :=
  ∀ (i : Instr) (s : State) (n : Nat), WellFormed s.extAlu i = true → i.seqLength s = some n → s.pc.toNat + n ≤ 255 →
    n = operandCount (opcodeOf i.op) + 1 ∧
    ∃ t, exec i s = .next t ∧ t.pc.toNat = s.pc.toNat + n ∧ t.run = s.run ∧ t.fault = s.fault

/-! ### The invariant -/

/-- The invariant holds at reset. FL = 0 and zero memory are the spec's own decisions D10, D11 (log entries 2, 3). -/
def Obligations.ResetMeetsInvariant : Prop := Inv State.reset

/-- Every step keeps the invariant: memory stays canonical and inside 0 to 255 (20_memory R40), at most one flag is set (10_state
R28), a fault record stands only in a Halted machine, is written once, and is legal for its cause (10_state R32, 60_exceptions
R161 to R164, R177). The infos a record may hold rest on the spec's own decisions D5, D6, D13, D20 (log entry 9). -/
def Obligations.StepKeepsInvariant : Prop :=
  ∀ s t : State, Inv s → step s = .next t → Inv t ∧ (s.fault ≠ none → t.fault = s.fault)

/-- Every machine that is created, loaded and launched meets the invariant, whatever the program, too long a one and a failed
load included (70_reset R180 to R183, 60_exceptions R165). FL = 0 and zero memory are D10, D11 (log entries 2, 3); the records of a
load that fails are log entry 8. -/
def Obligations.BootMeetsInvariant : Prop := ∀ (ext : Bool) (p : Option (List Byte)), Inv (boot ext p)

/-- Memories in canonical form that read alike everywhere are the same data: the list is the 256-byte array of 20_memory R40
(the representation is the model's choice, log entry 3). -/
def Obligations.MemoryIsCanonical : Prop :=
  ∀ m m' : Memory, m.wf = true → m'.wf = true → (∀ a, m.read a = m'.read a) → m = m'

/-! ### Two instructions in a row -/

/-- PUSH ra then POP rb, neither of them R7: SP is back, rb holds ra's value, and no other register has changed, for every SP
(43_stack R132, R133). -/
def Obligations.PushPopRestores : Prop :=
  ∀ (s : State) (ra rb : Byte) (ha : ra.toNat < 8) (hb : rb.toNat < 8), ra.toNat ≠ 7 → rb.toNat ≠ 7 →
    s.pc.toNat + 4 ≤ 255 →
    ∃ t u, exec (.push ra) s = .next t ∧ exec (.pop rb) t = .next u ∧ u.sp = s.sp ∧
      u.reg ⟨rb.toNat, hb⟩ = s.reg ⟨ra.toNat, ha⟩ ∧ SameRegsBut [⟨rb.toNat, hb⟩] s u ∧ u.pc.toNat = s.pc.toNat + 4

/-- The cases of 43_stack R133 that involve R7, for every other register: PUSH R7 then POP rb leaves the decremented SP in rb and
SP back; PUSH ra then POP R7 leaves ra's value plus 1 in SP; PUSH R7 then POP R7 leaves SP as it was. They rest on the spec's own
decision D9 (log entry 9). -/
def Obligations.PushPopWithStackPointer : Prop :=
  ∀ (s : State) (ra : Byte) (ha : ra.toNat < 8), ra.toNat ≠ 7 → s.pc.toNat + 4 ≤ 255 →
    (∃ t u, exec (.push 7) s = .next t ∧ exec (.pop ra) t = .next u ∧ u.reg ⟨ra.toNat, ha⟩ = s.sp - 1 ∧ u.sp = s.sp) ∧
    (∃ t u, exec (.push ra) s = .next t ∧ exec (.pop 7) t = .next u ∧ u.sp = s.reg ⟨ra.toNat, ha⟩ + 1) ∧
    (∃ t u, exec (.push 7) s = .next t ∧ exec (.pop 7) t = .next u ∧ u.sp = s.sp)

/-- CALL then RET resumes at the instruction after the CALL with every register as before (44_control R141, R142, R146). -/
def Obligations.CallRetResumes : Prop :=
  ∀ (s : State) (ra : Byte), ra.toNat < 8 → s.pc.toNat ≤ 253 →
    ∃ t u, exec (.call ra) s = .next t ∧ exec .ret t = .next u ∧ u.pc.toNat = s.pc.toNat + 2 ∧ SameRegsBut [] s u

/-- A byte written by PUSH or CALL is the opcode a later fetch reads at that address, with no fence or delay (20_memory R52, R56,
70_reset R187): whatever else has changed since, as long as memory has not. The bytes are those of 43_stack R131 and 44_control
R141; that PUSH R7 stores the decremented SP is the spec's own decision D9 (log entry 9). -/
def Obligations.FetchSeesStoredByte : Prop :=
  (∀ (s t u : State) (ra : Byte) (ha : ra.toNat < 8), exec (.push ra) s = .next t → u.mem = t.mem → u.pc = s.sp - 1 →
    u.pc.toNat ≤ 253 → ∃ l, fetch u = .ok l ∧ l.ir = if ra.toNat = 7 then s.sp - 1 else s.reg ⟨ra.toNat, ha⟩) ∧
  (∀ (s t u : State) (ra : Byte), ra.toNat < 8 → s.pc.toNat ≤ 253 → exec (.call ra) s = .next t → u.mem = t.mem →
    u.pc = s.sp - 1 → u.pc.toNat ≤ 253 → ∃ l, fetch u = .ok l ∧ l.ir.toNat = s.pc.toNat + 2)
end

