-- ==== Sys2Proof/Laws/Decode.lean ====
section
/-! SUPPORT. The opcode map's laws: what a lookup answers, that no two rows share a byte, the advances (30_encoding R67). -/

namespace Sys2Proof

/-- Dispatch answers exactly the configured row whose opcode the byte is: no two rows share a byte. -/
theorem lookup_eq_some {ext : Bool} {ir : Byte} {m : Op} :
    lookup ext ir = some m ↔ opcodeOf m = ir ∧ configured ext m = true := by
  constructor
  · intro h
    simpa using List.find?_some h
  · rintro ⟨rfl, h⟩
    revert h
    cases ext <;> cases m <;> decide

/-- Dispatch answers nothing exactly where no configured row has the byte. -/
theorem lookup_eq_none {ext : Bool} {ir : Byte} :
    lookup ext ir = none ↔ ∀ m, configured ext m = true → opcodeOf m ≠ ir := by
  constructor
  · intro h m hc he
    rw [lookup_eq_some.2 ⟨he, hc⟩] at h
    cases h
  · intro h
    cases hl : lookup ext ir with
    | none => rfl
    | some m =>
      obtain ⟨he, hc⟩ := lookup_eq_some.1 hl
      exact absurd he (h m hc)

/-- What decoding an instruction means: the dispatched operation on the two operand bytes. -/
theorem decode_eq_known {ext : Bool} {l : Latches} {i : Instr} :
    decode ext l = .known i ↔ ∃ m, opcodeOf m = l.ir ∧ configured ext m = true ∧ m.build l.op1 l.op2 = i := by
  unfold decode
  cases h : lookup ext l.ir with
  | none =>
    simp only [reduceCtorEq, false_iff, not_exists, not_and]
    intro m he hc
    exact absurd he (lookup_eq_none.1 h m hc)
  | some m =>
    obtain ⟨he, hc⟩ := lookup_eq_some.1 h
    simp only [DecodeResult.known.injEq]
    constructor
    · rintro rfl
      exact ⟨m, he, hc, rfl⟩
    · rintro ⟨m', he', hc', rfl⟩
      have : some m = some m' := h.symm.trans (lookup_eq_some.2 ⟨he', hc'⟩)
      cases this
      rfl

/-- A byte is rejected exactly under its own name and where dispatch finds nothing. -/
theorem decode_eq_unknown {ext : Bool} {l : Latches} {b : Byte} :
    decode ext l = .unknownInstruction b ↔ b = l.ir ∧ lookup ext l.ir = none := by
  unfold decode
  cases lookup ext l.ir <;> simp [eq_comm]

@[simp] theorem Op.build_op (m : Op) (a b : Byte) : (m.build a b).op = m := by cases m <;> rfl

/-- The advances of 40_sequencer R87. -/
@[simp] theorem adv_ldi : adv .ldi = 3 := by decide
@[simp] theorem adv_prn : adv .prn = 2 := by decide
@[simp] theorem adv_add : adv .add = 3 := by decide
@[simp] theorem adv_mul : adv .mul = 3 := by decide
@[simp] theorem adv_cmp : adv .cmp = 3 := by decide
@[simp] theorem adv_push : adv .push = 2 := by decide
@[simp] theorem adv_pop : adv .pop = 2 := by decide
@[simp] theorem adv_jeq : adv .jeq = 2 := by decide
@[simp] theorem adv_jne : adv .jne = 2 := by decide
@[simp] theorem adv_sub : adv .sub = 3 := by decide
@[simp] theorem adv_and : adv .and = 3 := by decide
@[simp] theorem adv_or : adv .or = 3 := by decide
@[simp] theorem adv_xor : adv .xor = 3 := by decide

end Sys2Proof
end

