-- ==== Sys2Proof/Laws/State.lean ====
section
/-! SUPPORT. What each update of State does to each field, and to the registers read through `State.reg`. -/

namespace Sys2Proof.Machine

/-! ### setReg -/

@[simp] theorem State.setReg_mem (s : State) (i : Fin 8) (v : Byte) : (s.setReg i v).mem = s.mem := rfl
@[simp] theorem State.setReg_regs (s : State) (i : Fin 8) (v : Byte) : (s.setReg i v).regs = s.regs.set i v := rfl
@[simp] theorem State.setReg_pc (s : State) (i : Fin 8) (v : Byte) : (s.setReg i v).pc = s.pc := rfl
@[simp] theorem State.setReg_fl (s : State) (i : Fin 8) (v : Byte) : (s.setReg i v).fl = s.fl := rfl
@[simp] theorem State.setReg_run (s : State) (i : Fin 8) (v : Byte) : (s.setReg i v).run = s.run := rfl
@[simp] theorem State.setReg_fault (s : State) (i : Fin 8) (v : Byte) : (s.setReg i v).fault = s.fault := rfl
@[simp] theorem State.setReg_out (s : State) (i : Fin 8) (v : Byte) : (s.setReg i v).out = s.out := rfl
@[simp] theorem State.setReg_extAlu (s : State) (i : Fin 8) (v : Byte) : (s.setReg i v).extAlu = s.extAlu := rfl

/-! ### setPc -/

@[simp] theorem State.setPc_mem (s : State) (v : Byte) : (s.setPc v).mem = s.mem := rfl
@[simp] theorem State.setPc_regs (s : State) (v : Byte) : (s.setPc v).regs = s.regs := rfl
@[simp] theorem State.setPc_pc (s : State) (v : Byte) : (s.setPc v).pc = v := rfl
@[simp] theorem State.setPc_fl (s : State) (v : Byte) : (s.setPc v).fl = s.fl := rfl
@[simp] theorem State.setPc_run (s : State) (v : Byte) : (s.setPc v).run = s.run := rfl
@[simp] theorem State.setPc_fault (s : State) (v : Byte) : (s.setPc v).fault = s.fault := rfl
@[simp] theorem State.setPc_out (s : State) (v : Byte) : (s.setPc v).out = s.out := rfl
@[simp] theorem State.setPc_extAlu (s : State) (v : Byte) : (s.setPc v).extAlu = s.extAlu := rfl
@[simp] theorem State.setPc_reg (s : State) (v : Byte) (j : Fin 8) : (s.setPc v).reg j = s.reg j := rfl
@[simp] theorem State.setPc_sp (s : State) (v : Byte) : (s.setPc v).sp = s.sp := rfl

/-! ### setFl -/

@[simp] theorem State.setFl_mem (s : State) (f : Flags) : (s.setFl f).mem = s.mem := rfl
@[simp] theorem State.setFl_regs (s : State) (f : Flags) : (s.setFl f).regs = s.regs := rfl
@[simp] theorem State.setFl_pc (s : State) (f : Flags) : (s.setFl f).pc = s.pc := rfl
@[simp] theorem State.setFl_fl (s : State) (f : Flags) : (s.setFl f).fl = f := rfl
@[simp] theorem State.setFl_run (s : State) (f : Flags) : (s.setFl f).run = s.run := rfl
@[simp] theorem State.setFl_fault (s : State) (f : Flags) : (s.setFl f).fault = s.fault := rfl
@[simp] theorem State.setFl_out (s : State) (f : Flags) : (s.setFl f).out = s.out := rfl
@[simp] theorem State.setFl_extAlu (s : State) (f : Flags) : (s.setFl f).extAlu = s.extAlu := rfl
@[simp] theorem State.setFl_reg (s : State) (f : Flags) (j : Fin 8) : (s.setFl f).reg j = s.reg j := rfl
@[simp] theorem State.setFl_sp (s : State) (f : Flags) : (s.setFl f).sp = s.sp := rfl

/-! ### emit -/

@[simp] theorem State.emit_mem (s : State) (v : Byte) : (s.emit v).mem = s.mem := rfl
@[simp] theorem State.emit_regs (s : State) (v : Byte) : (s.emit v).regs = s.regs := rfl
@[simp] theorem State.emit_pc (s : State) (v : Byte) : (s.emit v).pc = s.pc := rfl
@[simp] theorem State.emit_fl (s : State) (v : Byte) : (s.emit v).fl = s.fl := rfl
@[simp] theorem State.emit_run (s : State) (v : Byte) : (s.emit v).run = s.run := rfl
@[simp] theorem State.emit_fault (s : State) (v : Byte) : (s.emit v).fault = s.fault := rfl
@[simp] theorem State.emit_out (s : State) (v : Byte) : (s.emit v).out = s.out ++ [v] := rfl
@[simp] theorem State.emit_extAlu (s : State) (v : Byte) : (s.emit v).extAlu = s.extAlu := rfl
@[simp] theorem State.emit_reg (s : State) (v : Byte) (j : Fin 8) : (s.emit v).reg j = s.reg j := rfl
@[simp] theorem State.emit_sp (s : State) (v : Byte) : (s.emit v).sp = s.sp := rfl

/-! ### raise -/

@[simp] theorem State.raise_mem (s : State) (f : FaultRecord) : (s.raise f).mem = s.mem := rfl
@[simp] theorem State.raise_regs (s : State) (f : FaultRecord) : (s.raise f).regs = s.regs := rfl
@[simp] theorem State.raise_pc (s : State) (f : FaultRecord) : (s.raise f).pc = s.pc := rfl
@[simp] theorem State.raise_fl (s : State) (f : FaultRecord) : (s.raise f).fl = s.fl := rfl
@[simp] theorem State.raise_run (s : State) (f : FaultRecord) : (s.raise f).run = .halted := rfl
@[simp] theorem State.raise_fault (s : State) (f : FaultRecord) : (s.raise f).fault = some f := rfl
@[simp] theorem State.raise_out (s : State) (f : FaultRecord) : (s.raise f).out = s.out := rfl
@[simp] theorem State.raise_extAlu (s : State) (f : FaultRecord) : (s.raise f).extAlu = s.extAlu := rfl
@[simp] theorem State.raise_reg (s : State) (f : FaultRecord) (j : Fin 8) : (s.raise f).reg j = s.reg j := rfl
@[simp] theorem State.raise_sp (s : State) (f : FaultRecord) : (s.raise f).sp = s.sp := rfl

/-! ### halt -/

@[simp] theorem State.halt_mem (s : State) : (s.halt).mem = s.mem := rfl
@[simp] theorem State.halt_regs (s : State) : (s.halt).regs = s.regs := rfl
@[simp] theorem State.halt_pc (s : State) : (s.halt).pc = s.pc := rfl
@[simp] theorem State.halt_fl (s : State) : (s.halt).fl = s.fl := rfl
@[simp] theorem State.halt_run (s : State) : (s.halt).run = .halted := rfl
@[simp] theorem State.halt_fault (s : State) : (s.halt).fault = s.fault := rfl
@[simp] theorem State.halt_out (s : State) : (s.halt).out = s.out := rfl
@[simp] theorem State.halt_extAlu (s : State) : (s.halt).extAlu = s.extAlu := rfl
@[simp] theorem State.halt_reg (s : State) (j : Fin 8) : (s.halt).reg j = s.reg j := rfl
@[simp] theorem State.halt_sp (s : State) : (s.halt).sp = s.sp := rfl

/-! ### writeAt -/

@[simp] theorem State.writeAt_mem (s : State) (a v : Byte) : (s.writeAt a v).mem = s.mem.write a.toNat v := rfl
@[simp] theorem State.writeAt_regs (s : State) (a v : Byte) : (s.writeAt a v).regs = s.regs := rfl
@[simp] theorem State.writeAt_pc (s : State) (a v : Byte) : (s.writeAt a v).pc = s.pc := rfl
@[simp] theorem State.writeAt_fl (s : State) (a v : Byte) : (s.writeAt a v).fl = s.fl := rfl
@[simp] theorem State.writeAt_run (s : State) (a v : Byte) : (s.writeAt a v).run = s.run := rfl
@[simp] theorem State.writeAt_fault (s : State) (a v : Byte) : (s.writeAt a v).fault = s.fault := rfl
@[simp] theorem State.writeAt_out (s : State) (a v : Byte) : (s.writeAt a v).out = s.out := rfl
@[simp] theorem State.writeAt_extAlu (s : State) (a v : Byte) : (s.writeAt a v).extAlu = s.extAlu := rfl
@[simp] theorem State.writeAt_reg (s : State) (a v : Byte) (j : Fin 8) : (s.writeAt a v).reg j = s.reg j := rfl
@[simp] theorem State.writeAt_sp (s : State) (a v : Byte) : (s.writeAt a v).sp = s.sp := rfl

/-! ### target -/

@[simp] theorem State.target_mem (s : State) (v : Byte) : (s.target v).mem = s.mem := rfl
@[simp] theorem State.target_regs (s : State) (v : Byte) : (s.target v).regs = s.regs := rfl
@[simp] theorem State.target_pc (s : State) (v : Byte) : (s.target v).pc = v := rfl
@[simp] theorem State.target_fl (s : State) (v : Byte) : (s.target v).fl = s.fl := rfl
@[simp] theorem State.target_run (s : State) (v : Byte) : (s.target v).run = s.run := rfl
@[simp] theorem State.target_fault (s : State) (v : Byte) : (s.target v).fault = s.fault := rfl
@[simp] theorem State.target_out (s : State) (v : Byte) : (s.target v).out = s.out := rfl
@[simp] theorem State.target_extAlu (s : State) (v : Byte) : (s.target v).extAlu = s.extAlu := rfl
@[simp] theorem State.target_reg (s : State) (v : Byte) (j : Fin 8) : (s.target v).reg j = s.reg j := rfl
@[simp] theorem State.target_sp (s : State) (v : Byte) : (s.target v).sp = s.sp := rfl

/-! ### decSp -/

@[simp] theorem State.decSp_mem (s : State) : (s.decSp).mem = s.mem := rfl
@[simp] theorem State.decSp_regs (s : State) : (s.decSp).regs = s.regs.set Config.spIndex (s.sp - 1) := rfl
@[simp] theorem State.decSp_pc (s : State) : (s.decSp).pc = s.pc := rfl
@[simp] theorem State.decSp_fl (s : State) : (s.decSp).fl = s.fl := rfl
@[simp] theorem State.decSp_run (s : State) : (s.decSp).run = s.run := rfl
@[simp] theorem State.decSp_fault (s : State) : (s.decSp).fault = s.fault := rfl
@[simp] theorem State.decSp_out (s : State) : (s.decSp).out = s.out := rfl
@[simp] theorem State.decSp_extAlu (s : State) : (s.decSp).extAlu = s.extAlu := rfl

/-! ### incSp -/

@[simp] theorem State.incSp_mem (s : State) : (s.incSp).mem = s.mem := rfl
@[simp] theorem State.incSp_regs (s : State) : (s.incSp).regs = s.regs.set Config.spIndex (s.sp + 1) := rfl
@[simp] theorem State.incSp_pc (s : State) : (s.incSp).pc = s.pc := rfl
@[simp] theorem State.incSp_fl (s : State) : (s.incSp).fl = s.fl := rfl
@[simp] theorem State.incSp_run (s : State) : (s.incSp).run = s.run := rfl
@[simp] theorem State.incSp_fault (s : State) : (s.incSp).fault = s.fault := rfl
@[simp] theorem State.incSp_out (s : State) : (s.incSp).out = s.out := rfl
@[simp] theorem State.incSp_extAlu (s : State) : (s.incSp).extAlu = s.extAlu := rfl

/-! ### writeTop -/

@[simp] theorem State.writeTop_mem (s : State) (v : Byte) : (s.writeTop v).mem = s.mem.write s.sp.toNat v := rfl
@[simp] theorem State.writeTop_regs (s : State) (v : Byte) : (s.writeTop v).regs = s.regs := rfl
@[simp] theorem State.writeTop_pc (s : State) (v : Byte) : (s.writeTop v).pc = s.pc := rfl
@[simp] theorem State.writeTop_fl (s : State) (v : Byte) : (s.writeTop v).fl = s.fl := rfl
@[simp] theorem State.writeTop_run (s : State) (v : Byte) : (s.writeTop v).run = s.run := rfl
@[simp] theorem State.writeTop_fault (s : State) (v : Byte) : (s.writeTop v).fault = s.fault := rfl
@[simp] theorem State.writeTop_out (s : State) (v : Byte) : (s.writeTop v).out = s.out := rfl
@[simp] theorem State.writeTop_extAlu (s : State) (v : Byte) : (s.writeTop v).extAlu = s.extAlu := rfl
@[simp] theorem State.writeTop_reg (s : State) (v : Byte) (j : Fin 8) : (s.writeTop v).reg j = s.reg j := rfl
@[simp] theorem State.writeTop_sp (s : State) (v : Byte) : (s.writeTop v).sp = s.sp := rfl

/-! ### Registers -/

theorem State.setReg_reg (s : State) (i j : Fin 8) (v : Byte) :
    (s.setReg i v).reg j = if j = i then v else s.reg j := by
  simp only [State.reg, State.setReg, Fin.getElem_fin, Vector.getElem_set, Fin.ext_iff, eq_comm]

@[simp] theorem State.setReg_reg_same (s : State) (i : Fin 8) (v : Byte) : (s.setReg i v).reg i = v := by
  simp [State.setReg_reg]

theorem State.setReg_reg_other (s : State) {i j : Fin 8} (v : Byte) (h : j ≠ i) : (s.setReg i v).reg j = s.reg j := by
  simp [State.setReg_reg, h]

@[simp] theorem State.decSp_sp (s : State) : s.decSp.sp = s.sp - 1 := State.setReg_reg_same s _ _

@[simp] theorem State.incSp_sp (s : State) : s.incSp.sp = s.sp + 1 := State.setReg_reg_same s _ _

theorem State.decSp_reg (s : State) (j : Fin 8) : s.decSp.reg j = if j = Config.spIndex then s.sp - 1 else s.reg j :=
  State.setReg_reg s _ j _

theorem State.incSp_reg (s : State) (j : Fin 8) : s.incSp.reg j = if j = Config.spIndex then s.sp + 1 else s.reg j :=
  State.setReg_reg s _ j _

end Sys2Proof.Machine
end

