-- ==== Sys2Proof/Laws/Ops.lean ====
section
/-! SUPPORT. One lemma for each shared operation that says everything it can do: the operand check, the sequential
advance, the fetch, the flags, the ALU. -/

namespace Sys2Proof.Machine

/-! ### The operand check (40_sequencer R85) -/

theorem regIndex_ok {b : Byte} (h : b.toNat < 8) : regIndex b = .ok ⟨b.toNat, h⟩ := by simp [regIndex, h]

theorem regIndex_error {b : Byte} (h : 8 ≤ b.toNat) : regIndex b = .error ⟨.registerIndexError, b.toNat⟩ := by
  simp [regIndex, Nat.not_lt.2 h]

/-- A legal register byte: go on with its index. -/
theorem withReg_ok {ra : Byte} (h : ra.toNat < 8) (s : State) (k : Fin 8 → State) :
    withReg ra s k = k ⟨ra.toNat, h⟩ := by simp [withReg, State.orRaise, regIndex_ok h]

/-- An illegal one: raise, and nothing else. -/
theorem withReg_error {ra : Byte} (h : 8 ≤ ra.toNat) (s : State) (k : Fin 8 → State) :
    withReg ra s k = s.raise ⟨.registerIndexError, ra.toNat⟩ := by simp [withReg, State.orRaise, regIndex_error h]

/-- Everything a one-operand check can do. -/
theorem withReg_cases (ra : Byte) (s : State) (k : Fin 8 → State) :
    (∃ h : ra.toNat < 8, withReg ra s k = k ⟨ra.toNat, h⟩) ∨
      (8 ≤ ra.toNat ∧ withReg ra s k = s.raise ⟨.registerIndexError, ra.toNat⟩) := by
  by_cases h : ra.toNat < 8
  · exact .inl ⟨h, withReg_ok h s k⟩
  · exact .inr ⟨by omega, withReg_error (by omega) s k⟩

theorem withRegs_ok {ra rb : Byte} (ha : ra.toNat < 8) (hb : rb.toNat < 8) (s : State) (k : Fin 8 → Fin 8 → State) :
    withRegs ra rb s k = k ⟨ra.toNat, ha⟩ ⟨rb.toNat, hb⟩ := by rw [withRegs, withReg_ok ha, withReg_ok hb]

/-- Everything a two-operand check can do, operand 1 first. -/
theorem withRegs_cases (ra rb : Byte) (s : State) (k : Fin 8 → Fin 8 → State) :
    (∃ (ha : ra.toNat < 8) (hb : rb.toNat < 8), withRegs ra rb s k = k ⟨ra.toNat, ha⟩ ⟨rb.toNat, hb⟩) ∨
      (8 ≤ ra.toNat ∧ withRegs ra rb s k = s.raise ⟨.registerIndexError, ra.toNat⟩) ∨
      (ra.toNat < 8 ∧ 8 ≤ rb.toNat ∧ withRegs ra rb s k = s.raise ⟨.registerIndexError, rb.toNat⟩) := by
  unfold withRegs
  obtain ⟨ha, ea⟩ | ⟨ha, ea⟩ := withReg_cases ra s fun a => withReg rb s fun b => k a b
  · obtain ⟨hb, eb⟩ | ⟨hb, eb⟩ := withReg_cases rb s fun b => k ⟨ra.toNat, ha⟩ b
    · exact .inl ⟨ha, hb, ea.trans eb⟩
    · exact .inr (.inr ⟨ha, hb, ea.trans eb⟩)
  · exact .inr (.inl ⟨ha, ea⟩)

/-! ### The sequential advance (40_sequencer R87, R88) -/

theorem State.seq_advance {s : State} {m : Op} (h : s.pc.toNat + adv m ≤ 255) :
    s.seq m = s.setPc (BitVec.ofNat 8 (s.pc.toNat + adv m)) := by
  rw [State.seq, if_pos (by omega)]

theorem State.seq_past_top {s : State} {m : Op} (h : 256 ≤ s.pc.toNat + adv m) :
    s.seq m = s.raise ⟨.addressError, s.pc.toNat + adv m⟩ := by
  rw [State.seq, if_neg (by omega)]

/-- Everything a sequential advance can do. -/
theorem State.seq_cases (s : State) (m : Op) :
    (s.pc.toNat + adv m ≤ 255 ∧ s.seq m = s.setPc (BitVec.ofNat 8 (s.pc.toNat + adv m))) ∨
      (256 ≤ s.pc.toNat + adv m ∧ s.seq m = s.raise ⟨.addressError, s.pc.toNat + adv m⟩) := by
  by_cases h : s.pc.toNat + adv m ≤ 255
  · exact .inl ⟨h, State.seq_advance h⟩
  · exact .inr ⟨by omega, State.seq_past_top (by omega)⟩

/-- PC after an advance inside memory, as a number. -/
theorem State.seq_pc {s : State} {m : Op} (h : s.pc.toNat + adv m ≤ 255) :
    (s.seq m).pc.toNat = s.pc.toNat + adv m := by
  rw [State.seq_advance h, State.setPc_pc, BitVec.toNat_ofNat]
  omega

@[simp] theorem State.seq_mem (s : State) (m : Op) : (s.seq m).mem = s.mem := by unfold State.seq; split <;> rfl
@[simp] theorem State.seq_regs (s : State) (m : Op) : (s.seq m).regs = s.regs := by unfold State.seq; split <;> rfl
@[simp] theorem State.seq_fl (s : State) (m : Op) : (s.seq m).fl = s.fl := by unfold State.seq; split <;> rfl
@[simp] theorem State.seq_out (s : State) (m : Op) : (s.seq m).out = s.out := by unfold State.seq; split <;> rfl
@[simp] theorem State.seq_extAlu (s : State) (m : Op) : (s.seq m).extAlu = s.extAlu := by unfold State.seq; split <;> rfl
@[simp] theorem State.seq_reg (s : State) (m : Op) (j : Fin 8) : (s.seq m).reg j = s.reg j := by
  unfold State.seq; split <;> rfl
@[simp] theorem State.seq_sp (s : State) (m : Op) : (s.seq m).sp = s.sp := State.seq_reg s m _

theorem State.seq_run {s : State} {m : Op} (h : s.pc.toNat + adv m ≤ 255) : (s.seq m).run = s.run := by
  rw [State.seq_advance h]; rfl
theorem State.seq_fault {s : State} {m : Op} (h : s.pc.toNat + adv m ≤ 255) : (s.seq m).fault = s.fault := by
  rw [State.seq_advance h]; rfl

/-! ### The fetch (40_sequencer R82) -/

/-- The latches a fetch fills below address 254. -/
def State.latches (s : State) : Latches :=
  ⟨s.mem.read s.pc.toNat, s.mem.read (s.pc.toNat + 1), s.mem.read (s.pc.toNat + 2)⟩

theorem fetch_ok {s : State} (h : s.pc.toNat ≤ 253) : fetch s = .ok s.latches := by
  have h0 : s.pc.toNat < 256 := by omega
  have h1 : s.pc.toNat + 1 < 256 := by omega
  have h2 : s.pc.toNat + 2 < 256 := by omega
  simp [fetch, memRead, h0, h1, h2, State.latches, bind, Except.bind, pure, Except.pure]

/-- At 254 and 255 the prefetch leaves memory, at 256 in both cases. -/
theorem fetch_error {s : State} (h : 254 ≤ s.pc.toNat) : fetch s = .error ⟨.addressError, 256⟩ := by
  have hpc : s.pc.toNat = 254 ∨ s.pc.toNat = 255 := by have := s.pc.isLt; omega
  obtain hp | hp := hpc <;> simp [fetch, memRead, hp, bind, Except.bind]

/-! ### Flags (10_state R27, 42_alu R115, 44_control R147) -/

/-- The mask test is the Equal bit. -/
@[simp] theorem Flags.equalSet_eq (f : Flags) : f.equalSet = f.e := by
  obtain ⟨e, l, g⟩ := f
  cases e <;> cases l <;> cases g <;> decide

/-! ### The ALU (42_alu R111, R112) -/

theorem aluApply_configured {ext : Bool} {op : AluOp} (h : op.configured ext = true) (a b : Byte) :
    aluApply ext op a b = some (op.compute a b) := by simp [aluApply, h]

theorem aluApply_unconfigured {ext : Bool} {op : AluOp} (h : op.configured ext = false) (a b : Byte) :
    aluApply ext op a b = none := by simp [aluApply, h]

/-- Everything an ALU instruction can do: complete with a byte or a flag triple, raise at an operand, or (no program reaches
it) fail in the ALU. -/
theorem aluInstr_cases (m : Op) (op : AluOp) (ra rb : Byte) (s : State) :
    (∃ (ha : ra.toNat < 8) (hb : rb.toNat < 8), op.configured s.extAlu = true ∧
      aluInstr m op ra rb s =
        storeAlu s m ⟨ra.toNat, ha⟩ (some (op.compute (s.reg ⟨ra.toNat, ha⟩) (s.reg ⟨rb.toNat, hb⟩)))) ∨
      (op.configured s.extAlu = false ∧
        aluInstr m op ra rb s = s.raise ⟨.unsupportedOperationError, (opcodeOf m).toNat⟩) ∨
      (∃ b, (b = ra ∨ b = rb) ∧ 8 ≤ b.toNat ∧ aluInstr m op ra rb s = s.raise ⟨.registerIndexError, b.toNat⟩) := by
  unfold aluInstr
  obtain ⟨ha, hb, e⟩ | ⟨h, e⟩ | ⟨-, h, e⟩ := withRegs_cases ra rb s
    fun a b => storeAlu s m a (aluApply s.extAlu op (s.reg a) (s.reg b))
  · cases hc : op.configured s.extAlu
    · exact .inr (.inl ⟨rfl, by rw [e, aluApply_unconfigured hc]; rfl⟩)
    · exact .inl ⟨ha, hb, rfl, by rw [e, aluApply_configured hc]⟩
  · exact .inr (.inr ⟨ra, .inl rfl, h, e⟩)
  · exact .inr (.inr ⟨rb, .inr rfl, h, e⟩)

end Sys2Proof.Machine
end

