-- ==== Sys2Proof/Laws/Boot.lean ====
section
/-! SUPPORT. The load keeps the canonical form and touches nothing but memory while it fits; placing a word keeps the canonical form. -/

namespace Sys2Proof.Machine

theorem memWrite_ok {a : Nat} (h : a < 256) (v : Byte) (s : State) :
    memWrite a v s = .ok { s with mem := s.mem.write a v } := by simp [memWrite, h]

theorem memWrite_error {a : Nat} (h : 256 ≤ a) (v : Byte) (s : State) :
    memWrite a v s = .error ⟨.addressError, a⟩ := by simp [memWrite, Nat.not_lt.2 h]

/-- One byte of a load that is inside memory. -/
theorem State.loadFrom_cons {k : Nat} (h : k < 256) (s : State) (b : Byte) (bs : List Byte) :
    s.loadFrom k (b :: bs) = State.loadFrom { s with mem := s.mem.write k b } (k + 1) bs := by
  simp [State.loadFrom, State.orRaise, memWrite_ok h]

/-- A load's write past 255 raises (70_reset R181). -/
theorem State.loadFrom_past_top {k : Nat} (h : 256 ≤ k) (s : State) (b : Byte) (bs : List Byte) :
    s.loadFrom k (b :: bs) = s.raise ⟨.addressError, k⟩ := by
  simp [State.loadFrom, State.orRaise, memWrite_error h]

/-- The load keeps the canonical form. -/
theorem State.loadFrom_wf {s : State} (hs : s.mem.wf = true) (k : Nat) (p : List Byte) :
    (s.loadFrom k p).mem.wf = true := by
  induction p generalizing s k with
  | nil => exact hs
  | cons b bs ih =>
    by_cases h : k < 256
    · rw [State.loadFrom_cons h]
      exact ih (s := { s with mem := s.mem.write k b }) (Memory.wf_write hs h b) (k + 1)
    · rw [State.loadFrom_past_top (by omega)]
      exact hs

/-- Placing a byte keeps the canonical form. -/
theorem Memory.wf_place {m : Memory} (hm : m.wf = true) (a : Nat) (v : Byte) : (m.place a v).wf = true := by
  unfold Memory.place
  split
  · exact Memory.wf_write hm ‹_› v
  · exact hm

end Sys2Proof.Machine
end

