-- ==== Sys2Proof/Laws/Exec.lean ====
section
/-! SUPPORT. `exec` of each instruction as the shared operations it is made of, and which instructions the configuration has. -/

namespace Sys2Proof.Machine

theorem exec_ldi (ra imm : Byte) (s : State) :
    exec (.ldi ra imm) s = .next (withReg ra s fun a => (s.setReg a imm).seq .ldi) := rfl
theorem exec_prn (ra : Byte) (s : State) :
    exec (.prn ra) s = .next (withReg ra s fun a => (s.emit (s.reg a)).seq .prn) := rfl
theorem exec_hlt (s : State) : exec .hlt s = .next s.halt := rfl
theorem exec_add (ra rb : Byte) (s : State) : exec (.add ra rb) s = .next (aluInstr .add .add ra rb s) := rfl
theorem exec_mul (ra rb : Byte) (s : State) : exec (.mul ra rb) s = .next (aluInstr .mul .mul ra rb s) := rfl
theorem exec_cmp (ra rb : Byte) (s : State) : exec (.cmp ra rb) s = .next (aluInstr .cmp .cmp ra rb s) := rfl
theorem exec_push (ra : Byte) (s : State) :
    exec (.push ra) s = .next (withReg ra s fun a => (s.decSp.writeTop (s.decSp.reg a)).seq .push) := rfl
theorem exec_pop (ra : Byte) (s : State) :
    exec (.pop ra) s = .next (withReg ra s fun a => (s.setReg a s.readTop).incSp.seq .pop) := rfl
theorem exec_call (ra : Byte) (s : State) :
    exec (.call ra) s =
      .next (withReg ra s fun a => (s.decSp.writeTop (s.pc + 2)).target (s.decSp.reg a)) := rfl
theorem exec_ret (s : State) : exec .ret s = .next (s.incSp.target s.readTop) := rfl
theorem exec_jmp (ra : Byte) (s : State) : exec (.jmp ra) s = .next (withReg ra s fun a => s.target (s.reg a)) := rfl
theorem exec_jeq (ra : Byte) (s : State) :
    exec (.jeq ra) s = .next (withReg ra s fun a => if s.fl.equalSet then s.target (s.reg a) else s.seq .jeq) := rfl
theorem exec_jne (ra : Byte) (s : State) :
    exec (.jne ra) s = .next (withReg ra s fun a => if s.fl.equalSet then s.seq .jne else s.target (s.reg a)) := rfl
theorem exec_sub (ra rb : Byte) (s : State) : exec (.sub ra rb) s = .next (aluInstr .sub .sub ra rb s) := rfl
theorem exec_and (ra rb : Byte) (s : State) : exec (.and ra rb) s = .next (aluInstr .and .and ra rb s) := rfl
theorem exec_or (ra rb : Byte) (s : State) : exec (.or ra rb) s = .next (aluInstr .or .or ra rb s) := rfl
theorem exec_xor (ra rb : Byte) (s : State) : exec (.xor ra rb) s = .next (aluInstr .xor .xor ra rb s) := rfl

/-- An ALU instruction that completes, returning a byte: it is stored in register `ra`, and PC advances. -/
theorem aluInstr_byte {m : Op} {op : AluOp} {ra rb : Byte} (ha : ra.toNat < 8) (hb : rb.toNat < 8) {s : State}
    (hc : op.configured s.extAlu = true) {v : Byte}
    (hv : op.compute (s.reg ⟨ra.toNat, ha⟩) (s.reg ⟨rb.toNat, hb⟩) = .byte v) :
    aluInstr m op ra rb s = (s.setReg ⟨ra.toNat, ha⟩ v).seq m := by
  rw [aluInstr, withRegs_ok ha hb, aluApply_configured hc, hv, storeAlu]

/-- An ALU instruction that completes, returning flags. -/
theorem aluInstr_flags {m : Op} {op : AluOp} {ra rb : Byte} (ha : ra.toNat < 8) (hb : rb.toNat < 8) {s : State}
    (hc : op.configured s.extAlu = true) {f : Flags}
    (hf : op.compute (s.reg ⟨ra.toNat, ha⟩) (s.reg ⟨rb.toNat, hb⟩) = .flags f) :
    aluInstr m op ra rb s = (s.setFl f).seq m := by
  rw [aluInstr, withRegs_ok ha hb, aluApply_configured hc, hf, storeAlu]


end Sys2Proof.Machine

namespace Sys2Proof

/-- The extension instructions are available exactly with EXT_ALU = true (00_scope R4). -/
@[simp] theorem available_sub (ext : Bool) (ra rb : Byte) : (Instr.sub ra rb).available ext = ext := by cases ext <;> rfl
@[simp] theorem available_and (ext : Bool) (ra rb : Byte) : (Instr.and ra rb).available ext = ext := by cases ext <;> rfl
@[simp] theorem available_or (ext : Bool) (ra rb : Byte) : (Instr.or ra rb).available ext = ext := by cases ext <;> rfl
@[simp] theorem available_xor (ext : Bool) (ra rb : Byte) : (Instr.xor ra rb).available ext = ext := by cases ext <;> rfl

end Sys2Proof

namespace Sys2Proof.Machine

/-- Everything an instruction can do, before its sequential advance is split (`State.seq_cases`): raise at a register operand,
fail in an ALU without the operation, or its own effect. -/
inductive Effect : Instr → State → State → Prop where
  | badRegister {i : Instr} {s : State} {b : Byte} (hm : b ∈ i.regOperands) (hb : 8 ≤ b.toNat) :
      Effect i s (s.raise ⟨.registerIndexError, b.toNat⟩)
  | unconfigured {i : Instr} {s : State} (hi : i.available s.extAlu = false) :
      Effect i s (s.raise ⟨.unsupportedOperationError, (opcodeOf i.op).toNat⟩)
  | ldi {s : State} {ra imm : Byte} (ha : ra.toNat < 8) : Effect (.ldi ra imm) s ((s.setReg ⟨ra.toNat, ha⟩ imm).seq .ldi)
  | prn {s : State} {ra : Byte} (ha : ra.toNat < 8) : Effect (.prn ra) s ((s.emit (s.reg ⟨ra.toNat, ha⟩)).seq .prn)
  | hlt {s : State} : Effect .hlt s s.halt
  | add {s : State} {ra rb : Byte} (ha : ra.toNat < 8) (hb : rb.toNat < 8) :
      Effect (.add ra rb) s ((s.setReg ⟨ra.toNat, ha⟩ (s.reg ⟨ra.toNat, ha⟩ + s.reg ⟨rb.toNat, hb⟩)).seq .add)
  | mul {s : State} {ra rb : Byte} (ha : ra.toNat < 8) (hb : rb.toNat < 8) :
      Effect (.mul ra rb) s ((s.setReg ⟨ra.toNat, ha⟩ (s.reg ⟨ra.toNat, ha⟩ * s.reg ⟨rb.toNat, hb⟩)).seq .mul)
  | sub {s : State} {ra rb : Byte} (ha : ra.toNat < 8) (hb : rb.toNat < 8) (hc : s.extAlu = true) :
      Effect (.sub ra rb) s ((s.setReg ⟨ra.toNat, ha⟩ (s.reg ⟨ra.toNat, ha⟩ - s.reg ⟨rb.toNat, hb⟩)).seq .sub)
  | and {s : State} {ra rb : Byte} (ha : ra.toNat < 8) (hb : rb.toNat < 8) (hc : s.extAlu = true) :
      Effect (.and ra rb) s ((s.setReg ⟨ra.toNat, ha⟩ (s.reg ⟨ra.toNat, ha⟩ &&& s.reg ⟨rb.toNat, hb⟩)).seq .and)
  | or {s : State} {ra rb : Byte} (ha : ra.toNat < 8) (hb : rb.toNat < 8) (hc : s.extAlu = true) :
      Effect (.or ra rb) s ((s.setReg ⟨ra.toNat, ha⟩ (s.reg ⟨ra.toNat, ha⟩ ||| s.reg ⟨rb.toNat, hb⟩)).seq .or)
  | xor {s : State} {ra rb : Byte} (ha : ra.toNat < 8) (hb : rb.toNat < 8) (hc : s.extAlu = true) :
      Effect (.xor ra rb) s ((s.setReg ⟨ra.toNat, ha⟩ (s.reg ⟨ra.toNat, ha⟩ ^^^ s.reg ⟨rb.toNat, hb⟩)).seq .xor)
  | cmp {s : State} {ra rb : Byte} (ha : ra.toNat < 8) (hb : rb.toNat < 8) :
      Effect (.cmp ra rb) s ((s.setFl (compareFlags (s.reg ⟨ra.toNat, ha⟩) (s.reg ⟨rb.toNat, hb⟩))).seq .cmp)
  | push {s : State} {ra : Byte} (ha : ra.toNat < 8) :
      Effect (.push ra) s ((s.decSp.writeTop (s.decSp.reg ⟨ra.toNat, ha⟩)).seq .push)
  | pop {s : State} {ra : Byte} (ha : ra.toNat < 8) :
      Effect (.pop ra) s ((s.setReg ⟨ra.toNat, ha⟩ s.readTop).incSp.seq .pop)
  | call {s : State} {ra : Byte} (ha : ra.toNat < 8) :
      Effect (.call ra) s ((s.decSp.writeTop (s.pc + 2)).target (s.decSp.reg ⟨ra.toNat, ha⟩))
  | ret {s : State} : Effect .ret s (s.incSp.target s.readTop)
  | jmp {s : State} {ra : Byte} (ha : ra.toNat < 8) : Effect (.jmp ra) s (s.target (s.reg ⟨ra.toNat, ha⟩))
  | jeqTaken {s : State} {ra : Byte} (ha : ra.toNat < 8) (he : s.fl.e = true) :
      Effect (.jeq ra) s (s.target (s.reg ⟨ra.toNat, ha⟩))
  | jeqNot {s : State} {ra : Byte} (ha : ra.toNat < 8) (he : s.fl.e = false) : Effect (.jeq ra) s (s.seq .jeq)
  | jneTaken {s : State} {ra : Byte} (ha : ra.toNat < 8) (he : s.fl.e = false) :
      Effect (.jne ra) s (s.target (s.reg ⟨ra.toNat, ha⟩))
  | jneNot {s : State} {ra : Byte} (ha : ra.toNat < 8) (he : s.fl.e = true) : Effect (.jne ra) s (s.seq .jne)

theorem mem_two {ra rb : Byte} (b : Byte) (h : b = ra ∨ b = rb) : b ∈ [ra, rb] := by simpa using h

/-- The one-operand shape: the check's error, or the body. -/
theorem Effect.ofWithReg {i : Instr} {s : State} {ra : Byte} {k : Fin 8 → State} (hm : ra ∈ i.regOperands)
    (hk : ∀ ha : ra.toNat < 8, Effect i s (k ⟨ra.toNat, ha⟩)) : Effect i s (withReg ra s k) := by
  obtain ⟨ha, e⟩ | ⟨hb, e⟩ := withReg_cases ra s k
  · exact e ▸ hk ha
  · exact e ▸ .badRegister hm hb

/-- The ALU shape: an operand's error, the ALU's failure, or the stored result. -/
theorem Effect.ofAluInstr {i : Instr} {s : State} {ra rb : Byte} {op : AluOp} (hm : ∀ b, b = ra ∨ b = rb → b ∈ i.regOperands)
    (hc : op.configured s.extAlu = false → i.available s.extAlu = false)
    (hk : ∀ (ha : ra.toNat < 8) (hb : rb.toNat < 8), op.configured s.extAlu = true →
      Effect i s (storeAlu s i.op ⟨ra.toNat, ha⟩ (some (op.compute (s.reg ⟨ra.toNat, ha⟩) (s.reg ⟨rb.toNat, hb⟩))))) :
    Effect i s (aluInstr i.op op ra rb s) := by
  obtain ⟨ha, hb, h, e⟩ | ⟨h, e⟩ | ⟨b, hr, hb, e⟩ := aluInstr_cases i.op op ra rb s
  · exact e ▸ hk ha hb h
  · exact e ▸ .unconfigured (hc h)
  · exact e ▸ .badRegister (hm b hr) hb

/-- Everything `exec` can do: it answers a next state that is one of the effects. -/
theorem exec_effect (i : Instr) (s : State) : ∃ t, exec i s = .next t ∧ Effect i s t := by
  cases i with
  | ldi ra imm => exact ⟨_, exec_ldi ra imm s, .ofWithReg (List.mem_singleton.2 rfl) fun ha => .ldi ha⟩
  | prn ra => exact ⟨_, exec_prn ra s, .ofWithReg (List.mem_singleton.2 rfl) fun ha => .prn ha⟩
  | hlt => exact ⟨_, exec_hlt s, .hlt⟩
  | add ra rb =>
    exact ⟨_, exec_add ra rb s,
      .ofAluInstr (i := .add ra rb) mem_two (fun h => nomatch h) fun ha hb _ => .add ha hb⟩
  | mul ra rb =>
    exact ⟨_, exec_mul ra rb s,
      .ofAluInstr (i := .mul ra rb) mem_two (fun h => nomatch h) fun ha hb _ => .mul ha hb⟩
  | cmp ra rb =>
    exact ⟨_, exec_cmp ra rb s,
      .ofAluInstr (i := .cmp ra rb) mem_two (fun h => nomatch h) fun ha hb _ => .cmp ha hb⟩
  | push ra => exact ⟨_, exec_push ra s, .ofWithReg (List.mem_singleton.2 rfl) fun ha => .push ha⟩
  | pop ra => exact ⟨_, exec_pop ra s, .ofWithReg (List.mem_singleton.2 rfl) fun ha => .pop ha⟩
  | call ra => exact ⟨_, exec_call ra s, .ofWithReg (List.mem_singleton.2 rfl) fun ha => .call ha⟩
  | ret => exact ⟨_, exec_ret s, .ret⟩
  | jmp ra => exact ⟨_, exec_jmp ra s, .ofWithReg (List.mem_singleton.2 rfl) fun ha => .jmp ha⟩
  | jeq ra =>
    refine ⟨_, exec_jeq ra s, .ofWithReg (List.mem_singleton.2 rfl) fun ha => ?_⟩
    cases he : s.fl.e
    · simpa [he] using Effect.jeqNot ha he
    · simpa [he] using Effect.jeqTaken ha he
  | jne ra =>
    refine ⟨_, exec_jne ra s, .ofWithReg (List.mem_singleton.2 rfl) fun ha => ?_⟩
    cases he : s.fl.e
    · simpa [he] using Effect.jneTaken ha he
    · simpa [he] using Effect.jneNot ha he
  | sub ra rb =>
    exact ⟨_, exec_sub ra rb s,
      .ofAluInstr (i := .sub ra rb) mem_two (by simp [AluOp.configured]) fun ha hb h => .sub ha hb h⟩
  | and ra rb =>
    exact ⟨_, exec_and ra rb s,
      .ofAluInstr (i := .and ra rb) mem_two (by simp [AluOp.configured]) fun ha hb h => .and ha hb h⟩
  | or ra rb =>
    exact ⟨_, exec_or ra rb s,
      .ofAluInstr (i := .or ra rb) mem_two (by simp [AluOp.configured]) fun ha hb h => .or ha hb h⟩
  | xor ra rb =>
    exact ⟨_, exec_xor ra rb s,
      .ofAluInstr (i := .xor ra rb) mem_two (by simp [AluOp.configured]) fun ha hb h => .xor ha hb h⟩

/-- The inversion: a next state of `exec` is one of the effects. -/
theorem effect_of_exec {i : Instr} {s t : State} (h : exec i s = .next t) : Effect i s t := by
  obtain ⟨u, hu, he⟩ := exec_effect i s
  rw [h] at hu
  cases hu
  exact he

end Sys2Proof.Machine
end

