-- ==== Sys2Proof/Laws/PerInstr.lean ====
section
/-! SUPPORT. The opcode fields of every instruction (30_encoding R61, R62, R68): its length, its ALU bit and its sets-PC bit
agree with what the instruction is. -/

namespace Sys2Proof

/-- The operations routed through the ALU (30_encoding R68 (c)). -/
def Op.isAlu : Op → Bool
  | .add | .mul | .cmp | .sub | .and | .or | .xor => true
  | .ldi | .prn | .hlt | .push | .pop | .call | .ret | .jmp | .jeq | .jne => false

/-- The branch-class operations (30_encoding R68 (d)). -/
def Op.isBranch : Op → Bool
  | .call | .ret | .jmp | .jeq | .jne => true
  | .ldi | .prn | .hlt | .add | .mul | .cmp | .push | .pop | .sub | .and | .or | .xor => false

/-- The operand count of a format (30_encoding R64). -/
def Format.operandCount : Format → Nat
  | .f0          => 0
  | .f1r         => 1
  | .f2ri | .f2rr => 2

theorem operandCount_opcodeOf (m : Op) : operandCount (opcodeOf m) = (opcodeRow m).format.operandCount := by
  cases m <;> decide

theorem aluBit_opcodeOf (m : Op) : aluBit (opcodeOf m) = m.isAlu := by cases m <;> decide

theorem setsPcBit_opcodeOf (m : Op) : setsPcBit (opcodeOf m) = m.isBranch := by cases m <;> decide

/-- The opcode byte's fields say what the instruction is: operand count, ALU operation, sets PC. -/
def Laws.OpcodeFields.Statement (i : Instr) : Prop :=
  i.operands.length = operandCount (opcodeOf i.op) ∧ aluBit (opcodeOf i.op) = i.op.isAlu ∧
    setsPcBit (opcodeOf i.op) = i.op.isBranch

theorem Laws.OpcodeFields.ldi (ra imm : Byte) : Laws.OpcodeFields.Statement (.ldi ra imm) :=
  ⟨(operandCount_opcodeOf .ldi).symm, aluBit_opcodeOf .ldi, setsPcBit_opcodeOf .ldi⟩

theorem Laws.OpcodeFields.prn (ra : Byte) : Laws.OpcodeFields.Statement (.prn ra) :=
  ⟨(operandCount_opcodeOf .prn).symm, aluBit_opcodeOf .prn, setsPcBit_opcodeOf .prn⟩

theorem Laws.OpcodeFields.hlt : Laws.OpcodeFields.Statement .hlt :=
  ⟨(operandCount_opcodeOf .hlt).symm, aluBit_opcodeOf .hlt, setsPcBit_opcodeOf .hlt⟩

theorem Laws.OpcodeFields.add (ra rb : Byte) : Laws.OpcodeFields.Statement (.add ra rb) :=
  ⟨(operandCount_opcodeOf .add).symm, aluBit_opcodeOf .add, setsPcBit_opcodeOf .add⟩

theorem Laws.OpcodeFields.mul (ra rb : Byte) : Laws.OpcodeFields.Statement (.mul ra rb) :=
  ⟨(operandCount_opcodeOf .mul).symm, aluBit_opcodeOf .mul, setsPcBit_opcodeOf .mul⟩

theorem Laws.OpcodeFields.cmp (ra rb : Byte) : Laws.OpcodeFields.Statement (.cmp ra rb) :=
  ⟨(operandCount_opcodeOf .cmp).symm, aluBit_opcodeOf .cmp, setsPcBit_opcodeOf .cmp⟩

theorem Laws.OpcodeFields.push (ra : Byte) : Laws.OpcodeFields.Statement (.push ra) :=
  ⟨(operandCount_opcodeOf .push).symm, aluBit_opcodeOf .push, setsPcBit_opcodeOf .push⟩

theorem Laws.OpcodeFields.pop (ra : Byte) : Laws.OpcodeFields.Statement (.pop ra) :=
  ⟨(operandCount_opcodeOf .pop).symm, aluBit_opcodeOf .pop, setsPcBit_opcodeOf .pop⟩

theorem Laws.OpcodeFields.call (ra : Byte) : Laws.OpcodeFields.Statement (.call ra) :=
  ⟨(operandCount_opcodeOf .call).symm, aluBit_opcodeOf .call, setsPcBit_opcodeOf .call⟩

theorem Laws.OpcodeFields.ret : Laws.OpcodeFields.Statement .ret :=
  ⟨(operandCount_opcodeOf .ret).symm, aluBit_opcodeOf .ret, setsPcBit_opcodeOf .ret⟩

theorem Laws.OpcodeFields.jmp (ra : Byte) : Laws.OpcodeFields.Statement (.jmp ra) :=
  ⟨(operandCount_opcodeOf .jmp).symm, aluBit_opcodeOf .jmp, setsPcBit_opcodeOf .jmp⟩

theorem Laws.OpcodeFields.jeq (ra : Byte) : Laws.OpcodeFields.Statement (.jeq ra) :=
  ⟨(operandCount_opcodeOf .jeq).symm, aluBit_opcodeOf .jeq, setsPcBit_opcodeOf .jeq⟩

theorem Laws.OpcodeFields.jne (ra : Byte) : Laws.OpcodeFields.Statement (.jne ra) :=
  ⟨(operandCount_opcodeOf .jne).symm, aluBit_opcodeOf .jne, setsPcBit_opcodeOf .jne⟩

theorem Laws.OpcodeFields.sub (ra rb : Byte) : Laws.OpcodeFields.Statement (.sub ra rb) :=
  ⟨(operandCount_opcodeOf .sub).symm, aluBit_opcodeOf .sub, setsPcBit_opcodeOf .sub⟩

theorem Laws.OpcodeFields.and (ra rb : Byte) : Laws.OpcodeFields.Statement (.and ra rb) :=
  ⟨(operandCount_opcodeOf .and).symm, aluBit_opcodeOf .and, setsPcBit_opcodeOf .and⟩

theorem Laws.OpcodeFields.or (ra rb : Byte) : Laws.OpcodeFields.Statement (.or ra rb) :=
  ⟨(operandCount_opcodeOf .or).symm, aluBit_opcodeOf .or, setsPcBit_opcodeOf .or⟩

theorem Laws.OpcodeFields.xor (ra rb : Byte) : Laws.OpcodeFields.Statement (.xor ra rb) :=
  ⟨(operandCount_opcodeOf .xor).symm, aluBit_opcodeOf .xor, setsPcBit_opcodeOf .xor⟩


end Sys2Proof
end

