-- ==== Sys2Proof/Laws/Step.lean ====
section
/-! SUPPORT. What a step can do, said once (40_sequencer R81, R82, R84, R96). -/

namespace Sys2Proof.Machine

theorem step_halted {s : State} (h : s.run = .halted) : step s = .next s := by
  simp [step, sequencerStep, h]

theorem step_running {s : State} (h : s.run = .running) : step s = runningStep s := by
  simp [step, sequencerStep, h]

theorem step_prefetch_error {s : State} (h : s.run = .running) (hp : 254 ≤ s.pc.toNat) :
    step s = .next (s.raise ⟨.addressError, 256⟩) := by
  rw [step_running h, runningStep, fetch_error hp]

theorem step_unknown {s : State} (h : s.run = .running) (hp : s.pc.toNat ≤ 253) {b : Byte}
    (hd : decode s.extAlu s.latches = .unknownInstruction b) :
    step s = .next (s.raise ⟨.unknownInstructionError, b.toNat⟩) := by
  rw [step_running h, runningStep, fetch_ok hp]
  simp only [hd]

theorem step_known {s : State} (h : s.run = .running) (hp : s.pc.toNat ≤ 253) {i : Instr}
    (hd : decode s.extAlu s.latches = .known i) : step s = exec i s := by
  rw [step_running h, runningStep, fetch_ok hp]
  simp only [hd]

/-- Everything a step can do. -/
theorem step_cases (s : State) :
    (s.run = .halted ∧ step s = .next s) ∨
    (s.run = .running ∧ 254 ≤ s.pc.toNat ∧ step s = .next (s.raise ⟨.addressError, 256⟩)) ∨
    (s.run = .running ∧ s.pc.toNat ≤ 253 ∧ lookup s.extAlu s.latches.ir = none ∧
      step s = .next (s.raise ⟨.unknownInstructionError, s.latches.ir.toNat⟩)) ∨
    (∃ i, s.run = .running ∧ s.pc.toNat ≤ 253 ∧ decode s.extAlu s.latches = .known i ∧ step s = exec i s) := by
  cases h : s.run with
  | halted => exact .inl ⟨rfl, step_halted h⟩
  | running =>
    by_cases hp : s.pc.toNat ≤ 253
    · cases hd : decode s.extAlu s.latches with
      | known i => exact .inr (.inr (.inr ⟨i, rfl, hp, rfl, step_known h hp hd⟩))
      | unknownInstruction b =>
        obtain ⟨rfl, hl⟩ := decode_eq_unknown.1 hd
        exact .inr (.inr (.inl ⟨rfl, hp, hl, step_unknown h hp hd⟩))
    · exact .inr (.inl ⟨rfl, by omega, step_prefetch_error h (by omega)⟩)

end Sys2Proof.Machine
end

