-- ==== Sys2Proof/Tests/Slice0.lean ====
section
/-! SUPPORT. Small tests: the WellFormed smoke test, words written out from the spec, one step of each instruction with the
results of 95_test_vectors, and a witness of the hypotheses of each statement. -/

namespace Sys2Proof.Tests

open Sys2Proof Sys2Proof.Machine

/-! ### Helpers -/

/-- Bytes from an address up. -/
def putBytes (m : Memory) (a : Nat) : List Byte → Memory
  | []      => m
  | b :: bs => putBytes (m.write a b) (a + 1) bs

/-- A running machine with bytes at PC. -/
def at_ (pc : Byte) (bs : List Byte) : State := { State.reset with pc := pc, mem := putBytes [] pc.toNat bs }

/-- The same with EXT_ALU = true. -/
def atExt (pc : Byte) (bs : List Byte) : State := { at_ pc bs with extAlu := true }

/-- What is read off the next state, if there is one. -/
def seen {α : Type} (o : Result) (f : State → α) : Option α :=
  match o with
  | .next t => some (f t)
  | _       => none

/-- One step, then a second one from the state it answers. -/
def twice (s : State) : Result :=
  match step s with
  | .next t => step t
  | o       => o

/-- A fault as (code, info), with the run state. -/
def faulted (s : State) : Nat × Option Nat × RunState := (s.causeCode, s.fault.map (·.info), s.run)

/-! ### WellFormed refuses an ill-formed term for each check (30_encoding R65, R67) -/

theorem test_wf_accepts : WellFormed false (.ldi 7 0xFF) = true := by decide
theorem test_wf_operand1 : WellFormed false (.ldi 8 0) = false := by decide
theorem test_wf_operand1_f1r : WellFormed false (.push 0xFF) = false := by decide
theorem test_wf_operand1_f2rr : WellFormed false (.add 8 0) = false := by decide
theorem test_wf_operand2 : WellFormed false (.cmp 0 8) = false := by decide
theorem test_wf_extension_off : WellFormed false (.sub 0 1) = false := by decide
theorem test_wf_extension_on : WellFormed true (.sub 0 1) = true := by decide

/-! ### Decoding: words written out bit by bit from 30_encoding R67 and the examples of files 41 to 44 -/

theorem test_decode_ldi : decode false ⟨0b10000010, 0b00000011, 0b11111111⟩ = .known (.ldi 3 255) := by decide
theorem test_decode_prn : decode false ⟨0b01000111, 0b00000101, 0⟩ = .known (.prn 5) := by decide
theorem test_decode_hlt : decode false ⟨0b00000001, 8, 255⟩ = .known .hlt := by decide
theorem test_decode_add : decode false ⟨0b10100000, 0b00000111, 0b00000001⟩ = .known (.add 7 1) := by decide
theorem test_decode_mul : decode false ⟨0b10100010, 0, 1⟩ = .known (.mul 0 1) := by decide
theorem test_decode_cmp : decode false ⟨0b10100111, 0, 2⟩ = .known (.cmp 0 2) := by decide
theorem test_decode_push : decode false ⟨0b01000101, 7, 0⟩ = .known (.push 7) := by decide
theorem test_decode_pop : decode false ⟨0b01000110, 1, 0⟩ = .known (.pop 1) := by decide
theorem test_decode_call : decode false ⟨0b01010000, 1, 0⟩ = .known (.call 1) := by decide
theorem test_decode_ret : decode false ⟨0b00010001, 9, 9⟩ = .known .ret := by decide
theorem test_decode_jmp : decode false ⟨0b01010100, 0, 0⟩ = .known (.jmp 0) := by decide
theorem test_decode_jeq : decode false ⟨0b01010101, 2, 0⟩ = .known (.jeq 2) := by decide
theorem test_decode_jne : decode false ⟨0b01010110, 3, 0⟩ = .known (.jne 3) := by decide
theorem test_decode_sub : decode true ⟨0b10100001, 0, 1⟩ = .known (.sub 0 1) := by decide
theorem test_decode_and : decode true ⟨0b10101000, 0, 1⟩ = .known (.and 0 1) := by decide
theorem test_decode_or : decode true ⟨0b10101010, 0, 1⟩ = .known (.or 0 1) := by decide
theorem test_decode_xor : decode true ⟨0b10101011, 0, 1⟩ = .known (.xor 0 1) := by decide
/-- V-DEC: 0xA1 without the extension, 0xA3 and 0xFF with it. -/
theorem test_decode_unknown :
    decode false ⟨0xA1, 0, 1⟩ = .unknownInstruction 0xA1 ∧ decode true ⟨0xA3, 0, 1⟩ = .unknownInstruction 0xA3 ∧
      decode true ⟨0xFF, 0, 0⟩ = .unknownInstruction 0xFF := by decide
/-- V-DEC, the rows 0x56, 0xA3 and 0xFF. -/
theorem test_decoder_outputs :
    decodeOpcode false 0x56 = ⟨1, false, true, true⟩ ∧ decodeOpcode true 0xA3 = ⟨2, true, false, false⟩ ∧
      decodeOpcode false 0xFF = ⟨3, true, true, false⟩ := by decide
/-- Table words: the first byte is the low byte; bits above `nbits` are 0. -/
theorem test_table_word :
    decodeTableWord 24 0xFF0382 = some (.ldi 3 255) ∧ decodeTableWord 8 0x82 = some (.ldi 0 0) ∧
      decodeTableWord 16 0xFF0347 = some (.prn 3) ∧ decodeTableWord 24 0x0100A1 = some (.sub 0 1) ∧
      decodeTableWord 8 0 = none := by decide
/-- A word placed at reset is the first instruction run; the extension rows bring their configuration. -/
theorem test_placed_word_runs :
    seen (step (State.reset.withFetchWord 24 0xFF0382)) (fun t => (t.reg 3, t.pc)) = some (255, 3) ∧
      seen (step (State.reset.withFetchWord 24 0x0700AA)) (fun t => (t.reg 0, t.pc, t.fault)) = some (244, 3, none) := by decide
/-- 30_encoding R72. -/
theorem test_asm : (Instr.ldi 0 8).asm = "LDI R0,8" ∧ (Instr.add 0 1).asm = "ADD R0,R1" ∧ Instr.hlt.asm = "HLT" := by decide

/-! ### One step of each instruction (95_test_vectors part 2) -/

/-- V-LDI row 2. -/
theorem test_ldi : seen (step (at_ 0 [0x82, 0x03, 0xFF])) (fun t => (t.reg 3, t.pc)) = some (255, 3) := by decide
/-- V-LDI row 5: the write stands, then AddressError(256), PC kept. -/
theorem test_ldi_at_253 :
    seen (step (at_ 253 [0x82, 0x01, 0x07])) (fun t => (t.reg 1, faulted t, t.pc)) =
      some (7, (1, some 256, .halted), 253) := by decide
/-- V-PRN row 2. -/
theorem test_prn_sp : seen (step (at_ 0 [0x47, 0x07])) (fun t => (t.out, t.pc)) = some ([244], 2) := by decide
/-- V-PRN row 4. -/
theorem test_prn_bad_register :
    seen (step (at_ 0 [0x47, 0x08])) (fun t => (t.out, faulted t)) = some ([], (2, some 8, .halted)) := by decide
/-- V-HLT row 3. -/
theorem test_hlt_at_253 :
    seen (step (at_ 253 [0x01, 0x08, 0xFF])) (fun t => (t.normalEnd, t.pc)) = some (true, 253) := by decide
/-- V-HLT row 4. -/
theorem test_hlt_at_254 :
    seen (step (at_ 254 [0x01])) (fun t => (faulted t, t.pc)) = some ((1, some 256, .halted), 254) := by decide
/-- V-ADD row 3. -/
theorem test_add_wraps :
    seen (step (((at_ 0 [0xA0, 0x00, 0x01]).setReg 0 200).setReg 1 100)) (fun t => (t.reg 0, t.fl.byte)) =
      some (44, 0) := by decide
/-- V-ADD row 7: operand 1 first. -/
theorem test_add_operand_order : seen (step (at_ 0 [0xA0, 0x09, 0x0A])) faulted = some (2, some 9, .halted) := by decide
/-- V-MUL row 4. -/
theorem test_mul_wraps :
    seen (step (((at_ 0 [0xA2, 0x00, 0x01]).setReg 0 255).setReg 1 255)) (·.reg 0) = some 1 := by decide
/-- V-MUL row 6: a register by itself. -/
theorem test_mul_square : seen (step ((at_ 0 [0xA2, 0x00, 0x00]).setReg 0 20)) (·.reg 0) = some 144 := by decide
/-- V-CMP row 6: a stale L is cleared. -/
theorem test_cmp_clears_stale :
    seen (step ((((at_ 0 [0xA7, 0x00, 0x01]).setReg 0 7).setReg 1 7).setFl ⟨false, true, false⟩)) (·.fl.byte) =
      some 0x01 := by decide
/-- V-CMP row 4: unsigned. -/
theorem test_cmp_unsigned :
    seen (step ((at_ 0 [0xA7, 0x00, 0x01]).setReg 1 255)) (·.fl.byte) = some 0x04 := by decide
/-- V-STACK row 2. -/
theorem test_push_wraps :
    seen (step (((at_ 0 [0x45, 0x00]).setReg 7 0).setReg 0 9)) (fun t => (t.sp, t.mem.read 255, t.pc)) =
      some (255, 9, 2) := by decide
/-- V-STACK row 3. -/
theorem test_push_sp : seen (step (at_ 0 [0x45, 0x07])) (fun t => (t.sp, t.mem.read 243)) = some (243, 243) := by decide
/-- V-STACK row 5. -/
theorem test_pop_wraps :
    seen (step (((at_ 0 [0x46, 0x01]).setReg 7 255).writeAt 255 9)) (fun t => (t.reg 1, t.sp)) = some (9, 0) := by decide
/-- V-STACK row 6. -/
theorem test_pop_sp :
    seen (step (((at_ 0 [0x46, 0x07]).setReg 7 200).writeAt 200 0x10)) (·.sp) = some 0x11 := by decide
/-- V-CTL row 3. -/
theorem test_call_at_253 :
    seen (step (at_ 253 [0x50, 0x01])) (fun t => (t.mem.read 243, t.sp, t.pc)) = some (255, 243, 0) := by decide
/-- V-CTL row 2. -/
theorem test_call_sp :
    seen (step (at_ 0 [0x50, 0x07])) (fun t => (t.sp, t.mem.read 243, t.pc)) = some (243, 2, 243) := by decide
/-- V-CTL row 6. -/
theorem test_ret_wraps :
    seen (step (((at_ 0 [0x11]).setReg 7 255).writeAt 255 3)) (fun t => (t.pc, t.sp)) = some (3, 0) := by decide
/-- V-CTL row 8: the target is set, and the next step faults. -/
theorem test_jmp_to_255 :
    seen (step ((at_ 0 [0x54, 0x00]).setReg 0 255)) (fun t => (t.pc, t.fault)) = some (255, none) ∧
      seen (twice ((at_ 0 [0x54, 0x00]).setReg 0 255)) (fun t => (faulted t, t.pc)) =
        some ((1, some 256, .halted), 255) := by decide
/-- V-CTL rows 9 and 11: E taken, G not. -/
theorem test_jeq :
    seen (step (((at_ 20 [0x55, 0x02]).setReg 2 30).setFl ⟨true, false, false⟩)) (·.pc) = some 30 ∧
      seen (step (((at_ 20 [0x55, 0x02]).setReg 2 30).setFl ⟨false, false, true⟩)) (·.pc) = some 22 := by decide
/-- V-CTL row 16: the operand is checked though the branch is not taken. -/
theorem test_jeq_checked_not_taken :
    seen (step (at_ 0 [0x55, 0x08])) (fun t => (faulted t, t.pc)) = some ((2, some 8, .halted), 0) := by decide
/-- V-CTL rows 13 and 15: E not taken, FL = 0 taken. -/
theorem test_jne :
    seen (step (((at_ 20 [0x56, 0x03]).setReg 3 12).setFl ⟨true, false, false⟩)) (·.pc) = some 22 ∧
      seen (step ((at_ 20 [0x56, 0x03]).setReg 3 12)) (·.pc) = some 12 := by decide
/-- V-EXT row 3. -/
theorem test_sub_wraps : seen (step ((atExt 0 [0xA1, 0x00, 0x01]).setReg 1 1)) (·.reg 0) = some 255 := by decide
/-- V-EXT, with EXT_ALU = false. -/
theorem test_sub_unknown : seen (step (at_ 0 [0xA1, 0x00, 0x01])) faulted = some (4, some 0xA1, .halted) := by decide
/-- V-EXT row 5. -/
theorem test_and :
    seen (step (((atExt 0 [0xA8, 0x00, 0x01]).setReg 0 0xF0).setReg 1 0x3C)) (·.reg 0) = some 0x30 := by decide
/-- V-EXT row 7. -/
theorem test_or :
    seen (step (((atExt 0 [0xAA, 0x00, 0x01]).setReg 0 0xF0).setReg 1 0x0F)) (·.reg 0) = some 0xFF := by decide
/-- V-EXT row 9. -/
theorem test_xor :
    seen (step (((atExt 0 [0xAB, 0x00, 0x01]).setReg 0 0xFF).setReg 1 0x0F)) (·.reg 0) = some 0xF0 := by decide
/-- V-FAULT rows 1 and 4: 0x00 is no NOP; the prefetch comes before dispatch. -/
theorem test_fault_priority :
    seen (step (at_ 0 [0x00])) faulted = some (4, some 0, .halted) ∧
      seen (step (at_ 255 [0xFF])) faulted = some (1, some 256, .halted) := by decide
/-- W8 and 41_data_io R103: the digits of an output event (the LF is the model's, log entry 17). -/
theorem test_output_line :
    outputLine 244 = ['2', '4', '4', '\n'] ∧ outputLine 8 = ['8', '\n'] ∧ outputLine 100 = ['1', '0', '0', '\n'] := by decide
/-- 43_stack R132, 44_control R141: an instruction that overwrites its own bytes runs with the bytes it fetched (70_reset R186). -/
theorem test_push_over_itself :
    seen (step (((at_ 10 [0x45, 0x00]).setReg 7 11).setReg 0 0x47)) (fun t => (t.mem.read 10, t.sp, t.out, t.pc)) =
      some (0x47, 10, [], 12) := by decide

/-! ### Witnesses: the hypotheses of each statement are met, at the boundary of each clause -/

theorem witness_DecodeEncodeRoundTrip :
    (Instr.ldi 0xFF 0xFF).available false = true ∧ (Instr.xor 0 0xFF).available true = true := by decide
theorem witness_DecodedInstructionIsItsBytes : decode false ⟨0x46, 0xFF, 0x82⟩ = .known (.pop 0xFF) := by decide
theorem witness_InstructionLengthIsInTheOpcode :
    decode true ⟨0xAB, 0xFF, 0xFF⟩ = .known (.xor 0xFF 0xFF) ∧ 0xC0 ≤ (0xC0 : Byte).toNat ∧ 0xC0 ≤ (0xFF : Byte).toNat := by
  decide
theorem witness_StepRunsDecodedInstruction :
    ∃ s : State, s.run = .running ∧ s.pc.toNat ≤ 253 ∧
      decode s.extAlu ⟨s.mem.read s.pc.toNat, s.mem.read (s.pc.toNat + 1), s.mem.read (s.pc.toNat + 2)⟩ = .known (.ldi 1 7) :=
  ⟨at_ 253 [0x82, 0x01, 0x07], by decide⟩
theorem witness_PrefetchPastTopRaises :
    ((at_ 254 []).run = .running ∧ 254 ≤ (at_ 254 []).pc.toNat) ∧ (at_ 255 []).run = .running ∧ 254 ≤ (at_ 255 []).pc.toNat := by
  decide
theorem witness_UnknownOpcodeRaises :
    (∃ s : State, s.run = .running ∧ s.pc.toNat ≤ 253 ∧
      ∀ m, configured s.extAlu m = true → opcodeOf m ≠ s.mem.read s.pc.toNat) ∧
    (∃ s t : State, s.run = .running ∧ s.fault = none ∧ step s = .next t ∧
      t.fault = some ⟨.unknownInstructionError, 0xA1⟩) :=
  ⟨⟨at_ 253 [0xFF], by decide, by decide, by intro m _; cases m <;> decide⟩,
    ⟨at_ 0 [0xA1], _, by decide, by decide, rfl, by decide⟩⟩
theorem witness_ExtensionOpcodesUnknownWhenOff :
    ∀ b ∈ ([0xA1, 0xA8, 0xAA, 0xAB] : List Byte), (at_ 253 [b]).run = .running ∧ (at_ 253 [b]).pc.toNat ≤ 253 ∧
      (at_ 253 [b]).extAlu = false ∧ (at_ 253 [b]).mem.read (at_ 253 [b]).pc.toNat = b := by decide
theorem witness_BadRegisterOperandRaises :
    (∃ b ∈ (Instr.ldi 8 0).regOperands, 8 ≤ b.toNat) ∧ (∃ b ∈ (Instr.xor 7 0xFF).regOperands, 8 ≤ b.toNat) := by decide
/-- One state for each clause: 254; an unknown opcode at 253; a bad operand 2 after a good operand 1; good operands of 3 bytes
at 253 and at 252. -/
theorem witness_ErrorPriority :
    (∃ t, step (at_ 254 []) = .next t) ∧
    (∃ t, step (at_ 253 [0]) = .next t ∧ decode false ⟨0, 0, 0⟩ = .unknownInstruction 0) ∧
    (∃ t, step (at_ 0 [0xA0, 7, 8]) = .next t ∧ decode false ⟨0xA0, 7, 8⟩ = .known (.add 7 8) ∧
      (Instr.add 7 8).regOperands = [7] ++ 8 :: [] ∧ (∀ x ∈ ([7] : List Byte), x.toNat < 8) ∧ 8 ≤ (8 : Byte).toNat) ∧
    (∃ t, step (at_ 253 [0xA0, 7, 0]) = .next t ∧ decode false ⟨0xA0, 7, 0⟩ = .known (.add 7 0) ∧
      (∀ x ∈ (Instr.add 7 0).regOperands, x.toNat < 8)) ∧
    (∃ t, step (at_ 252 [0xA0, 7, 0]) = .next t) :=
  ⟨⟨_, rfl⟩, ⟨_, rfl, by decide⟩, ⟨_, rfl, by decide⟩, ⟨_, rfl, by decide⟩, ⟨_, rfl⟩⟩
theorem witness_HaltedStaysForGood : State.reset.halt.run = .halted := by decide
/-- HLT at 253, and a step that does not halt. -/
theorem witness_NormalEndOnlyByHlt :
    (∃ t, (at_ 253 [0x01]).run = .running ∧ (at_ 253 [0x01]).fault = none ∧ step (at_ 253 [0x01]) = .next t) ∧
    (∃ t, (at_ 0 [0x47]).run = .running ∧ (at_ 0 [0x47]).fault = none ∧ step (at_ 0 [0x47]) = .next t) :=
  ⟨⟨_, by decide, by decide, rfl⟩, ⟨_, by decide, by decide, rfl⟩⟩
theorem witness_LaunchSetsStackPointer :
    (State.create true).fault = none ∧ (List.replicate 256 (1 : Byte)).length ≤ 256 :=
  ⟨rfl, Nat.le_of_eq List.length_replicate⟩
theorem witness_LoadedProgramIsInMemory : ([] : List Byte).length ≤ 256 ∧ (List.replicate 256 (1 : Byte)).length ≤ 256 :=
  ⟨Nat.zero_le _, Nat.le_of_eq List.length_replicate⟩
theorem witness_LongProgramNeverLaunches : 256 < (List.replicate 257 (0 : Byte)).length := by
  rw [List.length_replicate]; decide
/-- The last PC at which a 3-byte instruction advances, and register operand 7. -/
theorem witness_three_byte_instructions : (7 : Byte).toNat < 8 ∧ (at_ 252 []).pc.toNat + 3 ≤ 255 := by decide
/-- The same with the extension configured (SubWraps, BitwiseOperations). -/
theorem witness_extension_instructions :
    (7 : Byte).toNat < 8 ∧ (atExt 252 []).extAlu = true ∧ (atExt 252 []).pc.toNat + 3 ≤ 255 := by decide
/-- The last PC at which a 2-byte instruction advances (PRN, PUSH, POP), for R7 and for another register. -/
theorem witness_two_byte_instructions :
    (7 : Byte).toNat < 8 ∧ (7 : Byte).toNat = 7 ∧ (6 : Byte).toNat < 8 ∧ (6 : Byte).toNat ≠ 7 ∧
      (at_ 253 []).pc.toNat + 2 ≤ 255 := by decide
theorem witness_CallPushesReturnAddress :
    (7 : Byte).toNat < 8 ∧ (0 : Byte).toNat < 8 ∧ (at_ 253 []).pc.toNat ≤ 253 := by decide
theorem witness_JmpSetsPc : (7 : Byte).toNat < 8 := by decide
/-- Both clauses of JEQ and of JNE. -/
theorem witness_branches :
    (7 : Byte).toNat < 8 ∧ ((at_ 255 []).setFl ⟨true, false, false⟩).fl.e = true ∧ (at_ 253 []).fl.e = false ∧
      ((at_ 253 []).setFl ⟨true, false, false⟩).fl.e = true ∧ (at_ 253 []).pc.toNat + 2 ≤ 255 := by decide
theorem witness_AdvancePastTopKeepsWrites :
    ∃ u, WellFormed (at_ 253 []).extAlu (.cmp 7 0) = true ∧ (encode (.cmp 7 0)).length = 3 ∧ (at_ 253 []).pc.toNat = 253 ∧
      exec (.cmp 7 0) ((at_ 253 []).setPc 0) = .next u := ⟨_, by decide, by decide, by decide, rfl⟩
theorem witness_UnconfiguredAluRaises :
    (7 : Byte).toNat < 8 ∧ State.reset.extAlu = false ∧
      Instr.xor 7 7 ∈ [Instr.sub 7 7, Instr.and 7 7, Instr.or 7 7, Instr.xor 7 7] := by decide
theorem witness_NoProgramRaisesUnsupported :
    ∃ (s t : State) (f : FaultRecord), step s = .next t ∧ t.fault = some f ∧ f.cause = .unsupportedOperationError :=
  ⟨State.reset.raise ⟨.unsupportedOperationError, 0xA1⟩, _, _, rfl, rfl, rfl⟩
theorem witness_OnlyCmpWritesFlags :
    (∃ t, (∀ ra rb, Instr.add 0 1 ≠ .cmp ra rb) ∧ exec (.add 0 1) State.reset = .next t) ∧ (7 : Byte).toNat < 8 :=
  ⟨⟨_, by simp, rfl⟩, by decide⟩
/-- Both cases of the first clause (no branch with any FL; a branch with only L changed) and the last PC of the second. -/
theorem witness_FlagsReadOnlyByBranches :
    (∃ t, exec (.push 0) State.reset = .next t ∧ (∀ ra, Instr.push 0 ≠ .jeq ra) ∧ (∀ ra, Instr.push 0 ≠ .jne ra)) ∧
    (∃ t, exec (.jeq 0) State.reset = .next t ∧ (Flags.mk false true false).e = State.reset.fl.e) ∧
    ((7 : Byte).toNat < 8 ∧ (at_ 253 []).pc.toNat + 2 ≤ 255) :=
  ⟨⟨_, rfl, by simp, by simp⟩, ⟨_, rfl, rfl⟩, by decide⟩
theorem witness_OnlyPrnEmits :
    ∃ t, step (at_ 253 [0x47, 0x07]) = .next t ∧ (at_ 253 [0x47, 0x07]).run = .running ∧
      (at_ 253 [0x47, 0x07]).pc.toNat ≤ 253 ∧ decode false ⟨0x47, 0x07, 0⟩ = .known (.prn 7) ∧ t.out ≠ [] :=
  ⟨_, rfl, by decide⟩
theorem witness_GeneralRegisterFrame :
    ∃ t, exec (.pop 0) State.reset = .next t ∧ ∀ b ∈ (Instr.pop 0).regWrites, b.toNat ≠ (1 : Fin 8).val :=
  ⟨_, rfl, by decide⟩
/-- Each of the three ways: PUSH, RET, and a destination of register 7. -/
theorem witness_StackPointerChanges :
    (∃ t, exec (.push 0) State.reset = .next t ∧ t.sp ≠ State.reset.sp) ∧
    (∃ t, exec .ret State.reset = .next t ∧ t.sp ≠ State.reset.sp) ∧
    (∃ t, exec (.ldi 7 0) State.reset = .next t ∧ t.sp ≠ State.reset.sp) :=
  ⟨⟨_, rfl, by decide⟩, ⟨_, rfl, by decide⟩, ⟨_, rfl, by decide⟩⟩
/-- A store beside the stored byte, and a form that stores nothing. -/
theorem witness_MemoryFrame :
    (∃ t, exec (.push 0) State.reset = .next t ∧ (Instr.push 0).storeAddr State.reset ≠ some 244) ∧
    (∃ t, exec (.pop 0) State.reset = .next t ∧ (Instr.pop 0).storeAddr State.reset ≠ some 243) :=
  ⟨⟨_, rfl, by decide⟩, ⟨_, rfl, by decide⟩⟩
theorem witness_ConfigurationFixedForARun : ∃ t, core.run 2 (atExt 0 [0x82, 0, 1, 0x01]) = .next t := ⟨_, rfl⟩
/-- Lengths 3 and 2 at their last PC. -/
theorem witness_SequentialAdvance :
    (WellFormed false (.ldi 7 0) = true ∧ (Instr.ldi 7 0).seqLength (at_ 252 []) = some 3 ∧ (at_ 252 []).pc.toNat + 3 ≤ 255) ∧
    (WellFormed false (.jeq 7) = true ∧ (Instr.jeq 7).seqLength (at_ 253 []) = some 2 ∧ (at_ 253 []).pc.toNat + 2 ≤ 255) := by
  decide
/-- A state that meets the invariant, with a fault already recorded, and one without. -/
theorem witness_StepKeepsInvariant :
    (∃ s t : State, Inv s ∧ step s = .next t ∧ s.fault ≠ none) ∧ (∃ s t : State, Inv s ∧ step s = .next t ∧ s.fault = none) :=
  ⟨⟨State.reset.raise ⟨.unknownInstructionError, 0⟩, _,
      ⟨rfl, rfl, fun _ => rfl, fun f hf => by cases hf; decide⟩, rfl, by decide⟩,
    ⟨State.reset, _, ⟨rfl, rfl, by decide, fun f hf => by cases hf⟩, rfl, rfl⟩⟩
theorem witness_MemoryIsCanonical :
    ∃ m m' : Memory, m.wf = true ∧ m'.wf = true ∧ (∀ a, m.read a = m'.read a) ∧ m ≠ [] :=
  ⟨[(0, 1), (255, 2)], [(0, 1), (255, 2)], by decide, by decide, fun _ => rfl, by decide⟩
theorem witness_PushPopRestores :
    (6 : Byte).toNat < 8 ∧ (0 : Byte).toNat < 8 ∧ (6 : Byte).toNat ≠ 7 ∧ (0 : Byte).toNat ≠ 7 ∧ (at_ 251 []).pc.toNat + 4 ≤ 255 := by
  decide
theorem witness_PushPopWithStackPointer :
    (6 : Byte).toNat < 8 ∧ (6 : Byte).toNat ≠ 7 ∧ (at_ 251 []).pc.toNat + 4 ≤ 255 := by decide
theorem witness_CallRetResumes : (7 : Byte).toNat < 8 ∧ (at_ 253 []).pc.toNat ≤ 253 := by decide
/-- A PUSH and a CALL whose slot, 243, is fetched next. -/
theorem witness_FetchSeesStoredByte :
    (∃ t u : State, exec (.push 0) State.reset = .next t ∧ u.mem = t.mem ∧ u.pc = State.reset.sp - 1 ∧ u.pc.toNat ≤ 253) ∧
    (∃ t u : State, State.reset.pc.toNat ≤ 253 ∧ exec (.call 0) State.reset = .next t ∧ u.mem = t.mem ∧
      u.pc = State.reset.sp - 1 ∧ u.pc.toNat ≤ 253) :=
  ⟨⟨_, { State.reset with mem := putBytes [] 0 [], pc := 243 }, rfl, rfl, by decide, by decide⟩,
    ⟨_, { State.reset with mem := putBytes [] 243 [2], pc := 243 }, by decide, rfl, by decide, by decide, by decide⟩⟩

end Sys2Proof.Tests
end

section
/-! PROOFS. The flags register (10_state R28, R29): who writes FL, and who reads it. The second question is noninterference,
so it is asked of two states that differ in FL alone. -/

namespace Sys2Proof.Machine

/-! ### Compare (42_alu R115) -/

@[simp] theorem compareFlags_e (a b : Byte) : (compareFlags a b).e = true ↔ a = b := decide_eq_true_iff
@[simp] theorem compareFlags_l (a b : Byte) : (compareFlags a b).l = true ↔ a.toNat < b.toNat := decide_eq_true_iff
@[simp] theorem compareFlags_g (a b : Byte) : (compareFlags a b).g = true ↔ b.toNat < a.toNat := decide_eq_true_iff

/-- Exactly one flag is set: the order of the two bytes is total. -/
theorem compareFlags_count (a b : Byte) :
    [(compareFlags a b).e, (compareFlags a b).l, (compareFlags a b).g].count true = 1 := by
  obtain h | h | h := Nat.lt_trichotomy a.toNat b.toNat
  · have hne : a ≠ b := ne_of_apply_ne BitVec.toNat (Nat.ne_of_lt h)
    simp [compareFlags, h, hne, Nat.le_of_lt h]
  · simp [compareFlags, BitVec.eq_of_toNat_eq h]
  · have hne : a ≠ b := ne_of_apply_ne BitVec.toNat (Nat.ne_of_gt h)
    simp [compareFlags, h, hne, Nat.le_of_lt h]

/-- CMP of two registers: the comparison goes into FL, whatever FL was, and PC advances. -/
theorem exec_cmp_ok {ra rb : Byte} (ha : ra.toNat < 8) (hb : rb.toNat < 8) (s : State) :
    exec (.cmp ra rb) s =
      .next ((s.setFl (compareFlags (s.reg ⟨ra.toNat, ha⟩) (s.reg ⟨rb.toNat, hb⟩))).seq .cmp) := by
  rw [exec_cmp, aluInstr_flags ha hb rfl rfl]

/-! ### Who writes FL (10_state R28) -/

/-- The frame of FL: every effect but that of CMP leaves it, an error included. -/
theorem Effect.fl_eq {i : Instr} {s t : State} (h : Effect i s t) (hi : ∀ ra rb, i ≠ .cmp ra rb) : t.fl = s.fl := by
  cases h with
  | cmp ha hb => exact absurd rfl (hi _ _)
  | _ => simp

/-- Settles O40: the frame of FL over the effects, and CMP's flags by the order of the two registers. -/
theorem onlyCmpWritesFlags : Obligations.OnlyCmpWritesFlags := by
  refine ⟨fun i s t hi h => (effect_of_exec h).fl_eq hi, fun s f ra rb ha hb => ?_⟩
  refine ⟨_, _, exec_cmp_ok ha hb s, exec_cmp_ok ha hb (s.setFl f), ?_⟩
  simp [compareFlags_count]

/-! ### Who reads FL (10_state R29) -/

/-- The two states are equal but for FL. -/
def State.EqButFl (s t : State) : Prop := t.setFl s.fl = s

theorem State.EqButFl.refl (s : State) : s.EqButFl s := rfl

theorem State.eqButFl_setFl (s : State) (f : Flags) : s.EqButFl (s.setFl f) := rfl

/-- The sequential advance reads no flag, whether it completes or raises. -/
theorem State.seq_eqButFl (s : State) (f : Flags) (m : Op) : (s.seq m).EqButFl ((s.setFl f).seq m) := by
  unfold State.seq
  rw [State.setFl_pc]
  split <;> rfl

/-- The operand check reads no flag: what it goes on with decides. -/
theorem withReg_eqButFl {ra : Byte} {s : State} {f : Flags} {k k' : Fin 8 → State} (hk : ∀ a, (k a).EqButFl (k' a)) :
    (withReg ra s k).EqButFl (withReg ra (s.setFl f) k') := by
  by_cases ha : ra.toNat < 8
  · rw [withReg_ok ha, withReg_ok ha]
    exact hk _
  · rw [withReg_error (by omega), withReg_error (by omega)]
    rfl

/-- Storing the ALU's answer reads no flag: a byte and a failure leave FL, a flag triple overwrites it. -/
theorem storeAlu_eqButFl (s : State) (f : Flags) (m : Op) (a : Fin 8) (r : Option AluResult) :
    (storeAlu s m a r).EqButFl (storeAlu (s.setFl f) m a r) := by
  match r with
  | some (.byte v)  => exact State.seq_eqButFl (s.setReg a v) f m
  | some (.flags g) => exact .refl ((s.setFl g).seq m)
  | none            => rfl

theorem aluInstr_eqButFl (m : Op) (op : AluOp) (ra rb : Byte) (s : State) (f : Flags) :
    (aluInstr m op ra rb s).EqButFl (aluInstr m op ra rb (s.setFl f)) :=
  withReg_eqButFl fun a => withReg_eqButFl fun _ => storeAlu_eqButFl s f m a _

/-- Noninterference: with another FL, of the same E under a JEQ or a JNE, an instruction goes to the same state but for FL. -/
theorem exec_setFl {i : Instr} {s t : State} {f : Flags} (h : exec i s = .next t)
    (hf : ((∀ ra, i ≠ .jeq ra) ∧ (∀ ra, i ≠ .jne ra)) ∨ f.e = s.fl.e) :
    ∃ u, exec i (s.setFl f) = .next u ∧ t.EqButFl u := by
  cases i <;> cases h <;> refine ⟨_, rfl, ?_⟩
  case ldi ra imm => exact withReg_eqButFl fun a => State.seq_eqButFl (s.setReg a imm) f .ldi
  case prn ra => exact withReg_eqButFl fun a => State.seq_eqButFl (s.emit (s.reg a)) f .prn
  case hlt => exact State.eqButFl_setFl s.halt f
  case push ra => exact withReg_eqButFl fun a => State.seq_eqButFl (s.decSp.writeTop (s.decSp.reg a)) f .push
  case pop ra => exact withReg_eqButFl fun a => State.seq_eqButFl (s.setReg a s.readTop).incSp f .pop
  case call ra => exact withReg_eqButFl fun _ => rfl
  case ret => exact State.eqButFl_setFl (s.incSp.target s.readTop) f
  case jmp ra => exact withReg_eqButFl fun a => State.eqButFl_setFl (s.target (s.reg a)) f
  case jeq ra =>
    have he : f.e = s.fl.e := hf.resolve_left fun hn => hn.1 ra rfl
    refine withReg_eqButFl fun a => ?_
    rw [Flags.equalSet_eq, Flags.equalSet_eq, State.setFl_fl, he]
    split
    · exact State.eqButFl_setFl (s.target (s.reg a)) f
    · exact State.seq_eqButFl s f .jeq
  case jne ra =>
    have he : f.e = s.fl.e := hf.resolve_left fun hn => hn.2 ra rfl
    refine withReg_eqButFl fun a => ?_
    rw [Flags.equalSet_eq, Flags.equalSet_eq, State.setFl_fl, he]
    split
    · exact State.seq_eqButFl s f .jne
    · exact State.eqButFl_setFl (s.target (s.reg a)) f
  case add ra rb | mul ra rb | cmp ra rb | sub ra rb | and ra rb | or ra rb | xor ra rb =>
    exact aluInstr_eqButFl _ _ ra rb s f

/-! ### Where the branches go (44_control R144, R145) -/

/-- PC after an advance inside memory, as a byte. -/
theorem State.seq_pc_add {s : State} {m : Op} (h : s.pc.toNat + adv m ≤ 255) :
    (s.seq m).pc = s.pc + BitVec.ofNat 8 (adv m) := by
  rw [State.seq_advance h, State.setPc_pc, BitVec.ofNat_add, BitVec.ofNat_toNat, BitVec.setWidth_eq]

theorem exec_jeq_pc {ra : Byte} (ha : ra.toNat < 8) {s : State} (hp : s.pc.toNat + 2 ≤ 255) :
    ∃ t, exec (.jeq ra) s = .next t ∧ t.pc = if s.fl.e then s.reg ⟨ra.toNat, ha⟩ else s.pc + 2 := by
  refine ⟨_, exec_jeq ra s, ?_⟩
  rw [withReg_ok ha, Flags.equalSet_eq]
  split
  · rfl
  · exact State.seq_pc_add (m := .jeq) hp

theorem exec_jne_pc {ra : Byte} (ha : ra.toNat < 8) {s : State} (hp : s.pc.toNat + 2 ≤ 255) :
    ∃ t, exec (.jne ra) s = .next t ∧ t.pc = if s.fl.e then s.pc + 2 else s.reg ⟨ra.toNat, ha⟩ := by
  refine ⟨_, exec_jne ra s, ?_⟩
  rw [withReg_ok ha, Flags.equalSet_eq]
  split
  · exact State.seq_pc_add (m := .jne) hp
  · rfl

/-- Settles O41: noninterference over the instructions, the two branches' targets, and CMP's L and G. -/
theorem flagsReadOnlyByBranches : Obligations.FlagsReadOnlyByBranches := by
  refine ⟨fun i s t f h hf => exec_setFl h hf, fun s ra ha hp => ⟨exec_jeq_pc ha hp, exec_jne_pc ha hp⟩, ?_⟩
  intro s ra rb ha hb
  exact ⟨_, exec_cmp_ok ha hb s, by simp⟩

end Sys2Proof.Machine
end

section
/-! PROOFS. The length of an instruction (30_encoding R61): the operand count is the top two bits of the opcode byte, the
encoding has one byte more, and no format has three operands. -/

namespace Sys2Proof

/-- `IR[7:6]` as a number: there is no bit above 7. -/
theorem operandCount_eq_div (ir : Byte) : operandCount ir = ir.toNat / 64 := by
  have h : ir.toNat / 64 < 4 := Nat.div_lt_of_lt_mul ir.isLt
  rw [operandCount, BitVec.extractLsb'_toNat, Nat.shiftRight_eq_div_pow]
  exact Nat.mod_eq_of_lt h

theorem Instr.operands_length (i : Instr) : i.operands.length = operandCount (opcodeOf i.op) := by
  rw [operandCount_opcodeOf]
  cases i <;> rfl

theorem encode_length (i : Instr) : (encode i).length = 1 + operandCount (opcodeOf i.op) := by
  rw [encode, List.length_cons, Instr.operands_length, Nat.add_comm]

theorem Format.operandCount_le_two (f : Format) : f.operandCount ≤ 2 := by cases f <;> decide

theorem opcodeOf_toNat_lt (m : Op) : (opcodeOf m).toNat < 0xC0 := by
  have h : (opcodeOf m).toNat / 64 ≤ 2 := by
    rw [← operandCount_eq_div, operandCount_opcodeOf]
    exact Format.operandCount_le_two _
  omega

/-- What is decoded carries the operation of the latched opcode byte. -/
theorem opcodeOf_op_of_decode {ext : Bool} {l : Latches} {i : Instr} (h : decode ext l = .known i) :
    opcodeOf i.op = l.ir := by
  obtain ⟨m, hm, _, rfl⟩ := decode_eq_known.1 h
  rw [Op.build_op, hm]

/-- Settles O4: the length from the opcode's operand count, and the bytes from 0xC0 up from the bound on every row's opcode. -/
theorem instructionLengthIsInTheOpcode : Obligations.InstructionLengthIsInTheOpcode := by
  constructor
  · intro ext l i h
    rw [encode_length, opcodeOf_op_of_decode h, operandCount_eq_div]
  · intro ext l hl
    refine decode_eq_unknown.2 ⟨rfl, lookup_eq_none.2 fun m _ hm => ?_⟩
    have hlt := opcodeOf_toNat_lt m
    rw [hm] at hlt
    omega

end Sys2Proof
end

section
/-! PROOFS. The outcomes seq and halt of an instruction rule (40_sequencer R87, R90): a well-formed instruction whose outcome is
sequential makes its writes, none of them to PC, the run state or the fault record, and then advances. -/

namespace Sys2Proof

theorem wellFormed_iff {ext : Bool} {i : Instr} :
    WellFormed ext i = true ↔ i.available ext = true ∧ ∀ b ∈ i.regOperands, b.toNat < 8 := by
  simp [WellFormed, isRegByte]

end Sys2Proof

namespace Sys2Proof.Machine

/-- The list of 40_sequencer R87 agrees with the operand counts of the opcode map. -/
theorem adv_of_seqLength {i : Instr} {s : State} {n : Nat} (h : i.seqLength s = some n) : adv i.op = n := by
  cases i with
  | hlt | call | ret | jmp => cases h
  | jeq ra =>
    obtain ⟨-, hn⟩ := Option.ite_none_left_eq_some.1 h
    exact adv_jeq.trans (Option.some.inj hn)
  | jne ra =>
    obtain ⟨-, hn⟩ := Option.ite_none_right_eq_some.1 h
    exact adv_jne.trans (Option.some.inj hn)
  | prn | push | pop | ldi | add | mul | cmp | sub | and | or | xor =>
    cases h
    simp [Instr.op]

/-- A well-formed instruction whose outcome is sequential advances, by its operation, from a state `u` that holds its writes:
its operands and its operation are good, so no error stands before the advance. -/
theorem Effect.eq_seq {i : Instr} {s t : State} {n : Nat} (h : Effect i s t) (hw : WellFormed s.extAlu i = true)
    (hn : i.seqLength s = some n) :
    ∃ u : State, t = u.seq i.op ∧ u.pc = s.pc ∧ u.run = s.run ∧ u.fault = s.fault := by
  obtain ⟨hav, hreg⟩ := wellFormed_iff.1 hw
  cases h with
  | badRegister hm hb => exact absurd (hreg _ hm) (Nat.not_lt.2 hb)
  | unconfigured hi => simp [hi] at hav
  | hlt | call | ret | jmp => cases hn
  | jeqTaken _ he => simp [Instr.seqLength, he] at hn
  | jneTaken _ he => simp [Instr.seqLength, he] at hn
  | _ => exact ⟨_, rfl, rfl, rfl, rfl⟩

/-- Settles O47: the length from the opcode map, and the advance of the state that holds the instruction's writes. -/
theorem sequentialAdvance : Obligations.SequentialAdvance := by
  intro i s n hw hn hp
  obtain ⟨t, ht, heff⟩ := exec_effect i s
  obtain ⟨u, rfl, hpc, hrun, hfault⟩ := heff.eq_seq hw hn
  have hadv : adv i.op = n := adv_of_seqLength hn
  have htop : u.pc.toNat + adv i.op ≤ 255 := by rwa [hpc, hadv]
  refine ⟨hadv.symm, _, ht, ?_, (State.seq_run htop).trans hrun, (State.seq_fault htop).trans hfault⟩
  rw [State.seq_pc htop, hpc, hadv]

/-- Settles O23: HLT is `State.halt`, whose laws give each field. -/
theorem hltHaltsInPlace : Obligations.HltHaltsInPlace := fun s =>
  ⟨s.halt, exec_hlt s, s.halt_run, s.halt_pc, s.halt_fault, fun j _ => s.halt_reg j,
    fun a => congrArg (Memory.read · a) s.halt_mem, s.halt_fl, s.halt_out, s.halt_extAlu⟩

end Sys2Proof.Machine
end

section
/-! PROOFS. The ALU's three base operations (42_alu R113 to R115): one equation of `aluApply` for each, whatever EXT_ALU is; the
bytes are sums and products of 8-bit words, and the flags are `compareFlags`, whose laws give each bit. -/

namespace Sys2Proof.Machine

theorem aluApply_add (ext : Bool) (a b : Byte) : aluApply ext .add a b = some (.byte (a + b)) :=
  aluApply_configured rfl a b

theorem aluApply_mul (ext : Bool) (a b : Byte) : aluApply ext .mul a b = some (.byte (a * b)) :=
  aluApply_configured rfl a b

theorem aluApply_cmp (ext : Bool) (a b : Byte) : aluApply ext .cmp a b = some (.flags (compareFlags a b)) :=
  aluApply_configured rfl a b

/-- Settles O36: the ALU's answer to each base operation, then the value of an 8-bit sum and product and the laws of the compare. -/
theorem aluBaseOperations : Obligations.AluBaseOperations := by
  intro ext a b
  refine ⟨⟨a + b, aluApply_add ext a b, BitVec.toNat_add a b⟩, ⟨a * b, aluApply_mul ext a b, BitVec.toNat_mul a b⟩, ?_⟩
  exact ⟨compareFlags a b, aluApply_cmp ext a b, compareFlags_e a b, compareFlags_l a b, compareFlags_g a b,
    compareFlags_count a b⟩

end Sys2Proof.Machine
end

section
/-! PROOFS. The errors of a register operand and of an unknown opcode (60_exceptions R162, R163): the operand check raises at the
first register operand that names no register, and no instruction raises UnknownInstructionError. -/

namespace Sys2Proof

/-- The formats with a register operand are those with an operand: every first operand is one. -/
theorem Instr.regOperands_eq_nil_iff (i : Instr) : i.regOperands = [] ↔ (opcodeRow i.op).format = .f0 := by
  have hlen : i.operands.length = (opcodeRow i.op).format.operandCount :=
    i.operands_length.trans (operandCount_opcodeOf i.op)
  unfold Instr.regOperands
  cases hf : (opcodeRow i.op).format with
  | f0 => simp
  | f1r | f2ri | f2rr =>
    have hne : i.operands ≠ [] := by
      rw [← List.length_pos_iff, hlen, hf]
      decide
    simp [hne]

/-- The register operand whose check fails, if any: the first of 8 or more (40_sequencer R85). -/
def Instr.badOperand (i : Instr) : Option Byte := i.regOperands.find? fun b => decide (8 ≤ b.toNat)

theorem Instr.mem_of_badOperand {i : Instr} {b : Byte} (h : i.badOperand = some b) : b ∈ i.regOperands :=
  List.mem_of_find?_eq_some h

theorem Instr.le_of_badOperand {i : Instr} {b : Byte} (h : i.badOperand = some b) : 8 ≤ b.toNat :=
  of_decide_eq_true (List.find?_some (p := fun b : Byte => decide (8 ≤ b.toNat)) h)

theorem Instr.exists_badOperand {i : Instr} {b : Byte} (hm : b ∈ i.regOperands) (hb : 8 ≤ b.toNat) :
    ∃ c, i.badOperand = some c :=
  Option.isSome_iff_exists.1 (List.find?_isSome.2 ⟨b, hm, decide_eq_true hb⟩)

end Sys2Proof

namespace Sys2Proof.Machine

/-! ### RegisterIndexError (60_exceptions R163) -/

theorem State.raised_raise (s : State) (f : FaultRecord) : Raised s (s.raise f) f :=
  ⟨rfl, rfl, fun _ _ => rfl, fun _ => rfl, rfl, rfl, rfl, rfl⟩

/-- Two operands of which one is bad: the check raises at the first bad one. -/
theorem withRegs_error {ra rb b : Byte} (h : [ra, rb].find? (fun b => decide (8 ≤ b.toNat)) = some b) (s : State)
    (k : Fin 8 → Fin 8 → State) : withRegs ra rb s k = s.raise ⟨.registerIndexError, b.toNat⟩ := by
  obtain ⟨ha, hb, _⟩ | ⟨ha, e⟩ | ⟨ha, hb, e⟩ := withRegs_cases ra rb s k
  · simp [ha, hb] at h
  · obtain rfl : ra = b := by simpa [ha] using h
    exact e
  · obtain rfl : rb = b := by simpa [ha, hb] using h
    exact e

/-- An instruction with a bad register operand raises at the first one, whatever else it would do. -/
theorem exec_badOperand {i : Instr} {b : Byte} (h : i.badOperand = some b) (s : State) :
    exec i s = .next (s.raise ⟨.registerIndexError, b.toNat⟩) := by
  cases i with
  | hlt | ret => cases h
  | ldi ra | prn ra | push ra | pop ra | call ra | jmp ra | jeq ra | jne ra =>
    obtain rfl : b = ra := List.mem_singleton.1 (Instr.mem_of_badOperand h)
    exact congrArg _ (withReg_error (Instr.le_of_badOperand h) s _)
  | add ra rb | mul ra rb | cmp ra rb | sub ra rb | and ra rb | or ra rb | xor ra rb =>
    exact congrArg _ (withRegs_error h s _)

/-- Settles O11: some register operand is the first bad one, and the instruction raises there. -/
theorem badRegisterOperandRaises : Obligations.BadRegisterOperandRaises := by
  refine ⟨rfl, Instr.regOperands_eq_nil_iff, ?_⟩
  rintro i s ⟨b, hm, hb⟩
  obtain ⟨c, hc⟩ := Instr.exists_badOperand hm hb
  exact ⟨c, Instr.mem_of_badOperand hc, Instr.le_of_badOperand hc, _, exec_badOperand hc s, s.raised_raise _⟩

/-! ### UnknownInstructionError (60_exceptions R162) -/

/-- Everything a sequential advance can do to the fault record. -/
theorem State.seq_fault_cases (s : State) (m : Op) :
    (s.seq m).fault = s.fault ∨
      (256 ≤ s.pc.toNat + adv m ∧ (s.seq m).fault = some ⟨.addressError, s.pc.toNat + adv m⟩) := by
  obtain ⟨h, -⟩ | ⟨h, e⟩ := State.seq_cases s m
  · exact .inl (State.seq_fault h)
  · exact .inr ⟨h, by rw [e, State.raise_fault]⟩

/-- Everything an instruction can do to the fault record: leave it, or record an error of its operands, of the ALU or of its
advance. -/
theorem Effect.fault_cases {i : Instr} {s t : State} (h : Effect i s t) :
    t.fault = s.fault ∨
      (∃ b ∈ i.regOperands, 8 ≤ b.toNat ∧ t.fault = some ⟨.registerIndexError, b.toNat⟩) ∨
      (i.available s.extAlu = false ∧ t.fault = some ⟨.unsupportedOperationError, (opcodeOf i.op).toNat⟩) ∨
      (256 ≤ s.pc.toNat + adv i.op ∧ t.fault = some ⟨.addressError, s.pc.toNat + adv i.op⟩) := by
  cases h with
  | badRegister hm hb => exact .inr (.inl ⟨_, hm, hb, rfl⟩)
  | unconfigured hi => exact .inr (.inr (.inl ⟨hi, rfl⟩))
  | hlt | call | ret | jmp | jeqTaken | jneTaken => exact .inl rfl
  | _ => exact (State.seq_fault_cases _ _).imp id fun hf => .inr (.inr hf)

/-- No instruction raises UnknownInstructionError: the sequencer does, where there is none to run. -/
theorem Effect.fault_ne_unknown {i : Instr} {s t : State} (h : Effect i s t) (hs : s.fault = none) (n : Nat) :
    t.fault ≠ some ⟨.unknownInstructionError, n⟩ := by
  obtain e | ⟨_, _, _, e⟩ | ⟨_, e⟩ | ⟨_, e⟩ := h.fault_cases <;> simp [e, hs]

/-- Settles O9: an opcode outside the map is not dispatched and raises; of what a step can do, nothing else records the cause. -/
theorem unknownOpcodeRaises : Obligations.UnknownOpcodeRaises := by
  refine ⟨rfl, fun s hr hp hm => ?_, fun s t n hr hs hstep ht => ?_⟩
  · exact ⟨_, step_unknown hr hp (decode_eq_unknown.2 ⟨rfl, lookup_eq_none.2 hm⟩), s.raised_raise _⟩
  · obtain ⟨hh, -⟩ | ⟨-, -, e⟩ | ⟨-, hp, hl, e⟩ | ⟨i, -, -, -, e⟩ := step_cases s
    · simp [hh] at hr
    · cases e.symm.trans hstep
      cases ht
    · cases e.symm.trans hstep
      cases ht
      exact ⟨hp, rfl, lookup_eq_none.1 hl⟩
    · exact absurd ht ((effect_of_exec (e.symm.trans hstep)).fault_ne_unknown hs n)

end Sys2Proof.Machine
end

section
/-! PROOFS. The launch (70_reset R180 to R183): it writes SP, the run state and PC of a machine that holds no fault record, and a
load that fits in memory leaves the created machine without one. -/

namespace Sys2Proof.Machine

/-- A machine whose load did not fail launches. -/
theorem State.launch_of_no_fault {s : State} (h : s.fault = none) :
    s.launch = { s.setReg Config.spIndex Config.spInit with run := .running, pc := Config.pcInit } := by
  simp only [State.launch, h]

theorem State.launch_sp {s : State} (h : s.fault = none) : s.launch.sp = Config.spInit := by
  rw [State.launch_of_no_fault h]
  exact s.setReg_reg_same Config.spIndex Config.spInit

/-- The frame of a launch: no register but SP changes. -/
theorem State.launch_reg {s : State} (h : s.fault = none) {j : Fin 8} (hj : j ≠ Config.spIndex) :
    s.launch.reg j = s.reg j := by
  rw [State.launch_of_no_fault h]
  exact s.setReg_reg_other Config.spInit hj

/-- The frame of a load that fits: nothing but memory changes, so no byte of it raised. -/
theorem State.loadFrom_eq_of_fits {k : Nat} {p : List Byte} (h : k + p.length ≤ 256) (s : State) :
    ∃ m, s.loadFrom k p = { s with mem := m } := by
  induction p generalizing s k with
  | nil => exact ⟨s.mem, rfl⟩
  | cons b bs ih =>
    rw [List.length_cons] at h
    rw [State.loadFrom_cons (by omega)]
    exact ih (by omega) { s with mem := s.mem.write k b }

/-- A created machine records no fault, nor does the load of a program that fits. -/
theorem load_create_fault {p : List Byte} (h : p.length ≤ 256) (ext : Bool) : ((State.create ext).load p).fault = none := by
  obtain ⟨m, hm⟩ := (State.create ext).loadFrom_eq_of_fits (k := 0) (p := p) (by omega)
  rw [State.load, hm]
  rfl

/-- Settles O16: SP and its frame at the launch, which happens after every load that fits. -/
theorem launchSetsStackPointer : Obligations.LaunchSetsStackPointer := by
  refine ⟨fun s hs => ⟨State.launch_sp hs, fun j hj => ?_⟩, fun ext p hp => ?_⟩
  · exact State.launch_reg hs fun h => hj (List.mem_singleton.2 h)
  · exact State.launch_sp (load_create_fault hp ext)

end Sys2Proof.Machine
end

section
/-! PROOFS. The opcode map, read both ways (30_encoding R60 to R70): an opcode byte of a configured row dispatches to its
operation, the operand bytes are the ones the format uses, and every other byte is unknown. -/

namespace Sys2Proof

/-! ### Decode and encode (30_encoding R60, R64, R70) -/

/-- The opcode byte of a configured operation decodes to that operation of the two bytes after it. -/
theorem decode_opcodeOf {ext : Bool} {m : Op} (h : configured ext m = true) (a b : Byte) :
    decode ext ⟨opcodeOf m, a, b⟩ = .known (m.build a b) :=
  decode_eq_known.2 ⟨m, rfl, h, rfl⟩

/-- The bytes after an opcode that its format does not use are dropped: whatever they are, the operands are the encoding's. -/
theorem Op.build_latches_encode (i : Instr) (p q : Byte) :
    i.op.build (Latches.ofBytes (encode i ++ [p, q])).op1 (Latches.ofBytes (encode i ++ [p, q])).op2 = i := by
  cases i <;> rfl

/-- Settles O2: the first byte is the opcode of the instruction's own operation, which builds the instruction from the rest. -/
theorem decodeEncodeRoundTrip : Obligations.DecodeEncodeRoundTrip := fun _ i p q h =>
  decode_eq_known.2 ⟨i.op, rfl, h, Op.build_latches_encode i p q⟩

/-- An operation keeps as many of the two operand bytes as its format has. -/
theorem Op.operands_build (m : Op) (a b : Byte) :
    (m.build a b).operands = [a, b].take (opcodeRow m).format.operandCount := by
  cases m <;> rfl

/-- What is decoded is in the configured map. -/
theorem available_of_decode {ext : Bool} {l : Latches} {i : Instr} (h : decode ext l = .known i) :
    i.available ext = true := by
  obtain ⟨m, -, hc, rfl⟩ := decode_eq_known.1 h
  rwa [Instr.available, Op.build_op]

/-- Settles O3: the encoding is the latched opcode and the operand bytes the format keeps; the dropped ones are the rest. -/
theorem decodedInstructionIsItsBytes : Obligations.DecodedInstructionIsItsBytes := by
  intro ext l i h
  refine ⟨available_of_decode h, ?_⟩
  obtain ⟨m, hm, -, rfl⟩ := decode_eq_known.1 h
  refine ⟨[l.op1, l.op2].drop (opcodeRow m).format.operandCount, ?_⟩
  rw [encode, Op.build_op, Op.operands_build, List.cons_append, List.take_append_drop, hm]

/-- Settles O1: each word's first byte is the opcode of a configured row, or of none. -/
theorem specWordsDecode : Obligations.SpecWordsDecode :=
  ⟨decode_opcodeOf (m := .ldi) rfl 0 8, decode_opcodeOf (m := .prn) rfl 7 1, decode_opcodeOf (m := .hlt) rfl 8 0xFF,
    decode_opcodeOf (m := .add) rfl 0 1, decode_opcodeOf (m := .cmp) rfl 0 2, decode_opcodeOf (m := .push) rfl 7 0,
    decode_opcodeOf (m := .pop) rfl 1 0, decode_opcodeOf (m := .call) rfl 1 0x46, decode_opcodeOf (m := .ret) rfl 0 0,
    decode_opcodeOf (m := .jeq) rfl 2 1, decode_opcodeOf (m := .sub) rfl 0 1,
    decode_eq_unknown.2 ⟨rfl, by decide⟩, decode_eq_unknown.2 ⟨rfl, by decide⟩⟩

/-! ### The unknown bytes (30_encoding R69) -/

/-- The opcode bytes of the configured map, as numbers. -/
def knownOpcodes (ext : Bool) : List Nat := (allOps.filter (configured ext)).map fun m => (opcodeOf m).toNat

theorem mem_allOps (m : Op) : m ∈ allOps := by cases m <;> decide

theorem knownOpcodes_nodup (ext : Bool) : (knownOpcodes ext).Nodup := by cases ext <;> decide

theorem lookup_ofNat_isSome {ext : Bool} {n : Nat} (h : n < 256) :
    (lookup ext (BitVec.ofNat 8 n)).isSome = true ↔ n ∈ knownOpcodes ext := by
  simp only [Option.isSome_iff_exists, lookup_eq_some, knownOpcodes, List.mem_map, List.mem_filter, mem_allOps, true_and]
  refine exists_congr fun m => ?_
  rw [← BitVec.toNat_inj, BitVec.toNat_ofNat, Nat.mod_eq_of_lt h, and_comm]

/-- The known bytes are the opcodes of the configured rows, each once. -/
theorem filter_isSome_perm (ext : Bool) :
    ((List.range 256).filter fun n => (lookup ext (BitVec.ofNat 8 n)).isSome).Perm (knownOpcodes ext) := by
  refine (List.perm_ext_iff_of_nodup (List.nodup_range.filter _) (knownOpcodes_nodup ext)).2 fun n => ?_
  rw [List.mem_filter, List.mem_range]
  constructor
  · rintro ⟨hn, h⟩
    exact (lookup_ofNat_isSome hn).1 h
  · intro h
    have hn : n < 256 := by
      obtain ⟨m, -, rfl⟩ := List.mem_map.1 h
      exact (opcodeOf m).isLt
    exact ⟨hn, (lookup_ofNat_isSome hn).2 h⟩

/-- Known and unknown bytes together are all 256. -/
theorem length_unknown_add (ext : Bool) :
    ((List.range 256).filter fun n => (lookup ext (BitVec.ofNat 8 n)).isNone).length + (knownOpcodes ext).length = 256 := by
  have h := List.length_eq_length_filter_add (l := List.range 256) fun n => (lookup ext (BitVec.ofNat 8 n)).isSome
  rw [(filter_isSome_perm ext).length_eq, List.length_range] at h
  simp only [Option.not_isSome] at h
  omega

/-- Settles O5: the map has 13 rows without the extension and 17 with it, and no row is 0x00. -/
theorem unknownOpcodeCount : Obligations.UnknownOpcodeCount := by
  have h13 : (knownOpcodes false).length = 13 := rfl
  have h17 : (knownOpcodes true).length = 17 := rfl
  have hf := length_unknown_add false
  have ht := length_unknown_add true
  exact ⟨by omega, by omega, rfl, rfl⟩

/-! ### The decoder's outputs (30_encoding R62, R63) -/

theorem getLsbD_eq_true_iff (b : Byte) (k : Nat) : b.getLsbD k = true ↔ b.toNat / 2 ^ k % 2 = 1 := by
  rw [BitVec.getLsbD, Nat.testBit_eq_decide_div_mod_eq, decide_eq_true_iff]

/-- A byte is known exactly where decoding answers an instruction. -/
theorem lookup_isSome_iff_decode {ext : Bool} {l : Latches} :
    (lookup ext l.ir).isSome = true ↔ ∃ i, decode ext l = .known i := by
  unfold decode
  cases lookup ext l.ir <;> simp

/-- Settles O6: each output is a bit field of the byte, but for `known`, which is the dispatch's answer. -/
theorem decoderOutputs : Obligations.DecoderOutputs := fun _ ir a b =>
  ⟨operandCount_eq_div ir, getLsbD_eq_true_iff ir 5, getLsbD_eq_true_iff ir 4,
    lookup_isSome_iff_decode (l := ⟨ir, a, b⟩)⟩

end Sys2Proof
end

section
/-! PROOFS. The step and the invariant (40_sequencer R80 to R98, 60_exceptions R160 to R169): what a step can do to the fault
record and the run state is said once for an instruction (`Effect`) and once for the step, and the rest follows from it. -/

namespace Sys2Proof.Machine

/-! ### One step (40_sequencer R81, R82, R84, R96) -/

/-- Settles O7: the latches a fetch fills below 254 are the three bytes at PC. -/
theorem stepRunsDecodedInstruction : Obligations.StepRunsDecodedInstruction := fun _ _ hr hp hd => step_known hr hp hd

/-- Settles O8: the step is the raise of the prefetch's error, before any decode. -/
theorem prefetchPastTopRaises : Obligations.PrefetchPastTopRaises := fun s hr hp =>
  ⟨_, step_prefetch_error hr hp, s.raised_raise _⟩

/-- The extension's opcodes are no row of the base configuration's map. -/
theorem lookup_extension_off : ∀ b ∈ ([0xA1, 0xA8, 0xAA, 0xAB] : List Byte), lookup false b = none := by decide

/-- Settles O10: the opcode byte is in no row of the map without the extension, so it is not dispatched. -/
theorem extensionOpcodesUnknownWhenOff : Obligations.ExtensionOpcodesUnknownWhenOff := by
  rintro s hr hp hx b hb rfl
  refine ⟨_, step_unknown hr hp (decode_eq_unknown.2 ⟨rfl, ?_⟩), s.raised_raise _⟩
  rw [hx]
  exact lookup_extension_off _ hb

/-- Settles O13: of the four things a step can do, three answer a state outright, and the fourth is `exec`, which always does. -/
theorem everyStepCompletes : Obligations.EveryStepCompletes := by
  intro s
  obtain ⟨-, e⟩ | ⟨-, -, e⟩ | ⟨-, -, -, e⟩ | ⟨i, -, -, -, e⟩ := step_cases s
  · exact ⟨_, e⟩
  · exact ⟨_, e⟩
  · exact ⟨_, e⟩
  · obtain ⟨t, ht, -⟩ := exec_effect i s
    exact ⟨t, e.trans ht⟩

/-- The step runs a HLT: its prefetch succeeds and the opcode byte is 0x01. -/
def State.AtHlt (s : State) : Prop := s.pc.toNat ≤ 253 ∧ s.mem.read s.pc.toNat = 0x01

/-- A byte outside the map is no HLT: every configuration has one. -/
theorem State.not_atHlt_of_unknown {s : State} (hl : lookup s.extAlu s.latches.ir = none) : ¬ s.AtHlt := by
  rintro ⟨-, h⟩
  exact lookup_eq_none.1 hl .hlt (by simp [configured, opcodeRow]) h.symm

/-- The inversion of a step, from the state it answers: a Halted machine stays, the sequencer raises a legal record where no HLT
stands, or the decoded instruction has one of its effects. -/
theorem step_inversion {s t : State} (h : step s = .next t) :
    (s.run = .halted ∧ t = s) ∨
    (s.run = .running ∧ ¬ s.AtHlt ∧ ∃ f, f.legal s.extAlu = true ∧ t = s.raise f) ∨
    (∃ i, s.run = .running ∧ s.pc.toNat ≤ 253 ∧ decode s.extAlu s.latches = .known i ∧ Effect i s t) := by
  obtain ⟨hr, e⟩ | ⟨hr, hp, e⟩ | ⟨hr, -, hl, e⟩ | ⟨i, hr, hp, hd, e⟩ := step_cases s
  · cases e.symm.trans h
    exact .inl ⟨hr, rfl⟩
  · cases e.symm.trans h
    exact .inr (.inl ⟨hr, fun hlt => absurd hlt.1 (by omega), _, rfl, rfl⟩)
  · cases e.symm.trans h
    have hleg : FaultRecord.legal s.extAlu ⟨.unknownInstructionError, s.latches.ir.toNat⟩ = true := by
      simp [FaultRecord.legal, hl, s.latches.ir.isLt]
    exact .inr (.inl ⟨hr, State.not_atHlt_of_unknown hl, _, hleg, rfl⟩)
  · exact .inr (.inr ⟨i, hr, hp, hd, effect_of_exec (e.symm.trans h)⟩)

/-! ### Runs -/

/-- A run's first step, then the rest. -/
theorem run_succ_of_step {s t : State} (h : step s = .next t) (k : Nat) : core.run (k + 1) s = core.run k t := by
  simp only [Host.Core.run, core, h]

/-- Settles O14: by induction on the number of steps, each of which answers the state itself. -/
theorem haltedStaysForGood : Obligations.HaltedStaysForGood := by
  intro s k hs
  induction k with
  | zero => rfl
  | succ k ih => rw [run_succ_of_step (step_halted hs), ih]

theorem Effect.extAlu_eq {i : Instr} {s t : State} (h : Effect i s t) : t.extAlu = s.extAlu := by
  cases h <;> simp

theorem step_extAlu {s t : State} (h : step s = .next t) : t.extAlu = s.extAlu := by
  obtain ⟨-, rfl⟩ | ⟨-, -, f, -, rfl⟩ | ⟨i, -, -, -, heff⟩ := step_inversion h
  · rfl
  · exact s.raise_extAlu f
  · exact heff.extAlu_eq

/-- Settles O46: by induction on the number of steps, each of which keeps EXT_ALU. -/
theorem configurationFixedForARun : Obligations.ConfigurationFixedForARun := by
  intro k s t h
  induction k generalizing s with
  | zero =>
    cases h
    rfl
  | succ k ih =>
    obtain ⟨u, hu⟩ := everyStepCompletes s
    rw [run_succ_of_step hu] at h
    rw [ih u h, step_extAlu hu]

/-! ### The fault record after a step (60_exceptions R161 to R164, R177) -/

theorem adv_le_three (m : Op) : adv m ≤ 3 := by
  have h := Format.operandCount_le_two (opcodeRow m).format
  rw [adv, operandCount_opcodeOf]
  omega

/-- What an instruction that the configuration has may record, where a step runs it, is legal: its advance raises only
AddressError(256). -/
theorem Effect.fault_legal {i : Instr} {s t : State} (h : Effect i s t) (hp : s.pc.toNat ≤ 253)
    (hav : i.available s.extAlu = true) :
    t.fault = s.fault ∨ ∃ f, t.fault = some f ∧ f.legal s.extAlu = true := by
  obtain e | ⟨b, -, hb, e⟩ | ⟨hun, -⟩ | ⟨hadv, e⟩ := h.fault_cases
  · exact .inl e
  · exact .inr ⟨_, e, by simp [FaultRecord.legal, hb, b.isLt]⟩
  · simp [hav] at hun
  · have h256 : s.pc.toNat + adv i.op = 256 := by
      have := adv_le_three i.op
      omega
    exact .inr ⟨_, e, by simp [FaultRecord.legal, h256]⟩

/-- Everything a step can do to the fault record: leave it, or write a legal one. -/
theorem step_fault_legal {s t : State} (h : step s = .next t) :
    t.fault = s.fault ∨ ∃ f, t.fault = some f ∧ f.legal s.extAlu = true := by
  obtain ⟨-, rfl⟩ | ⟨-, -, f, hf, rfl⟩ | ⟨i, -, hp, hd, heff⟩ := step_inversion h
  · exact .inl rfl
  · exact .inr ⟨f, rfl, hf⟩
  · exact heff.fault_legal hp (available_of_decode hd)

/-- Settles O39: a record written anew is legal, and no legal record has that cause. -/
theorem noProgramRaisesUnsupported : Obligations.NoProgramRaisesUnsupported := by
  intro s t f h hf hc
  obtain e | ⟨g, hg, hleg⟩ := step_fault_legal h
  · rw [← e, hf]
  · cases hf.symm.trans hg
    simp [FaultRecord.legal, hc] at hleg

/-! ### The run state after a step (10_state R31, 40_sequencer R97) -/

/-- A sequential advance halts exactly where it raises. -/
theorem State.seq_run_halted_iff {s : State} (hr : s.run = .running) (hf : s.fault = none) (m : Op) :
    (s.seq m).run = .halted ↔ (s.seq m).fault ≠ none := by
  obtain ⟨-, e⟩ | ⟨-, e⟩ := State.seq_cases s m <;> simp [e, hr, hf]

/-- An instruction halts exactly where it raises or is HLT. -/
theorem Effect.run_halted_iff {i : Instr} {s t : State} (h : Effect i s t) (hr : s.run = .running) (hf : s.fault = none) :
    t.run = .halted ↔ t.fault ≠ none ∨ i = .hlt := by
  cases h with
  | badRegister | unconfigured | hlt => simp
  | call | ret | jmp | jeqTaken | jneTaken => simp [hr, hf]
  | _ => simp [State.seq_run_halted_iff, hr, hf]

/-- The opcode byte of HLT is 0x01 and no other operation's is (30_encoding R67). -/
theorem opcodeOf_eq_one_iff {i : Instr} : opcodeOf i.op = 0x01 ↔ i = .hlt := by
  cases i <;> simp [Instr.op, opcodeOf, opcodeRow]

/-- A step runs HLT exactly where the instruction it decodes is HLT. -/
theorem State.atHlt_iff {s : State} {i : Instr} (hp : s.pc.toNat ≤ 253) (hd : decode s.extAlu s.latches = .known i) :
    s.AtHlt ↔ i = .hlt := by
  rw [State.AtHlt, and_iff_right hp, ← opcodeOf_eq_one_iff, opcodeOf_op_of_decode hd, State.latches]

/-- A running machine halts exactly by a fatal error or by HLT. -/
theorem step_run_halted_iff {s t : State} (hr : s.run = .running) (hf : s.fault = none) (h : step s = .next t) :
    t.run = .halted ↔ t.fault ≠ none ∨ s.AtHlt := by
  obtain ⟨hh, -⟩ | ⟨-, -, f, -, rfl⟩ | ⟨i, -, hp, hd, heff⟩ := step_inversion h
  · simp [hh] at hr
  · simp
  · rw [State.atHlt_iff hp hd]
    exact heff.run_halted_iff hr hf

/-- HLT raises no error. -/
theorem step_fault_of_atHlt {s t : State} (hs : s.AtHlt) (h : step s = .next t) :
    t.fault = s.fault := by
  obtain ⟨-, rfl⟩ | ⟨-, hno, -⟩ | ⟨i, hr, hp, hd, -⟩ := step_inversion h
  · rfl
  · exact absurd hs hno
  · obtain rfl := (State.atHlt_iff hp hd).1 hs
    cases ((step_known hr hp hd).trans (exec_hlt s)).symm.trans h
    rfl

theorem State.normalEnd_iff {s : State} : s.normalEnd = true ↔ s.run = .halted ∧ s.fault = none := by
  simp [State.normalEnd]

/-- Settles O15: the run state by a fatal error or HLT, of which HLT alone leaves no fault record. -/
theorem normalEndOnlyByHlt : Obligations.NormalEndOnlyByHlt := by
  intro s t hr hf h
  have hrun := step_run_halted_iff hr hf h
  refine ⟨?_, hrun⟩
  rw [State.normalEnd_iff, hrun]
  constructor
  · rintro ⟨hfault | hlt, hnone⟩
    · exact absurd hnone hfault
    · exact hlt
  · intro hlt
    exact ⟨.inr hlt, (step_fault_of_atHlt hlt h).trans hf⟩

/-! ### The priority of errors (60_exceptions R168) -/

/-- The first bad operand, told by its place. -/
theorem badOperand_of_split {i : Instr} {pre post : List Byte} {b : Byte} (hi : i.regOperands = pre ++ b :: post)
    (hpre : ∀ x ∈ pre, x.toNat < 8) (hb : 8 ≤ b.toNat) : i.badOperand = some b := by
  refine List.find?_eq_some_iff_append.2 ⟨decide_eq_true hb, pre, post, hi, fun x hx => ?_⟩
  simp [hpre x hx]

theorem adv_op_eq_length (i : Instr) : adv i.op = (encode i).length := by rw [encode_length, adv, Nat.add_comm]

/-- Every 3-byte instruction advances sequentially (40_sequencer R87). -/
theorem seqLength_of_length_three {i : Instr} (h : (encode i).length = 3) (s : State) : i.seqLength s = some 3 := by
  cases i with
  | ldi | add | mul | cmp | sub | and | or | xor => rfl
  | _ => cases h

/-- A well-formed instruction that a step runs raises only at 253, and only of 3 bytes. -/
theorem Effect.fault_of_wellFormed {i : Instr} {s t : State} (h : Effect i s t) (hw : WellFormed s.extAlu i = true)
    (hp : s.pc.toNat ≤ 253) (hf : s.fault = none) :
    t.fault = if s.pc.toNat = 253 ∧ (encode i).length = 3 then some ⟨.addressError, 256⟩ else none := by
  have hadv := adv_op_eq_length i
  split
  next htop =>
    obtain ⟨hpc, hlen⟩ := htop
    obtain ⟨u, rfl, hu, -⟩ := h.eq_seq hw (seqLength_of_length_three hlen s)
    have hsum : u.pc.toNat + adv i.op = 256 := by rw [hu, hpc, hadv, hlen]
    rw [State.seq_past_top (Nat.le_of_eq hsum.symm), State.raise_fault, hsum]
  next hin =>
    obtain ⟨hav, hreg⟩ := wellFormed_iff.1 hw
    obtain e | ⟨b, hm, hb, -⟩ | ⟨hun, -⟩ | ⟨hpast, -⟩ := h.fault_cases
    · rw [e, hf]
    · exact absurd (hreg b hm) (Nat.not_lt.2 hb)
    · simp [hav] at hun
    · have := adv_le_three i.op
      omega

/-- Settles O12: each clause is one branch of the step; the operand check is the instruction's own first act. -/
theorem errorPriority : Obligations.ErrorPriority := by
  intro s t hr hf h
  refine ⟨fun hp => ?_, ?_⟩
  · cases (step_prefetch_error hr hp).symm.trans h
    rfl
  rintro hp _ rfl
  refine ⟨fun op hd => ?_, fun i hd => ?_⟩
  · cases (step_unknown hr hp hd).symm.trans h
    rfl
  have hexec : exec i s = .next t := (step_known hr hp hd).symm.trans h
  refine ⟨fun pre b post hi hpre hb => ?_, fun hreg => ?_⟩
  · cases (exec_badOperand (badOperand_of_split hi hpre hb) s).symm.trans hexec
    rfl
  · exact (effect_of_exec hexec).fault_of_wellFormed (wellFormed_iff.2 ⟨available_of_decode hd, hreg⟩) hp hf

/-! ### The invariant (10_state R28, R32, 20_memory R40) -/

theorem Effect.mem_wf {i : Instr} {s t : State} (h : Effect i s t) (hs : s.mem.wf = true) : t.mem.wf = true := by
  cases h with
  | push ha =>
    rw [State.seq_mem]
    exact State.writeTop_wf (s := s.decSp) hs _
  | call ha => exact State.writeTop_wf (s := s.decSp) hs _
  | _ => simpa using hs

theorem Flags.atMostOne_of_count {f : Flags} (h : [f.e, f.l, f.g].count true = 1) : f.atMostOne = true := by
  obtain ⟨e, l, g⟩ := f
  revert e l g
  decide

theorem Effect.fl_one {i : Instr} {s t : State} (h : Effect i s t) (hs : s.fl.atMostOne = true) :
    t.fl.atMostOne = true := by
  cases h with
  | cmp ha hb =>
    rw [State.seq_fl]
    exact Flags.atMostOne_of_count (compareFlags_count _ _)
  | _ => simpa using hs

/-- A step keeps memory canonical and at most one flag set. -/
theorem step_mem_fl {s t : State} (h : step s = .next t) (hs : Inv s) : t.mem.wf = true ∧ t.fl.atMostOne = true := by
  obtain ⟨-, rfl⟩ | ⟨-, -, f, -, rfl⟩ | ⟨i, -, -, -, heff⟩ := step_inversion h
  · exact ⟨hs.mem_wf, hs.fl_one⟩
  · exact ⟨hs.mem_wf, hs.fl_one⟩
  · exact ⟨heff.mem_wf hs.mem_wf, heff.fl_one hs.fl_one⟩

/-- A step that starts with no fault record ends Halted if it writes one. -/
theorem step_fault_halted {s t : State} (h : step s = .next t) (hf : s.fault = none) (ht : t.fault ≠ none) :
    t.run = .halted := by
  cases hr : s.run with
  | halted =>
    cases (step_halted hr).symm.trans h
    exact absurd hf ht
  | running => exact (step_run_halted_iff hr hf h).2 (.inl ht)

/-- A step from a machine that holds no fault record keeps the invariant: the record it may write is legal and halts it. -/
theorem Inv.step_of_no_fault {s t : State} (hs : Inv s) (hf : s.fault = none) (h : step s = .next t) : Inv t := by
  obtain ⟨hmem, hfl⟩ := step_mem_fl h hs
  refine ⟨hmem, hfl, step_fault_halted h hf, fun f ht => ?_⟩
  obtain e | ⟨g, hg, hleg⟩ := step_fault_legal h
  · rw [e, hf] at ht
    cases ht
  · cases ht.symm.trans hg
    rwa [step_extAlu h]

/-- Settles O49: a machine that holds a record is Halted and answers itself; one that holds none keeps the invariant. -/
theorem stepKeepsInvariant : Obligations.StepKeepsInvariant := by
  intro s t hs h
  by_cases hf : s.fault = none
  · exact ⟨hs.step_of_no_fault hf h, fun hn => absurd hf hn⟩
  · cases (step_halted (hs.fault_halted hf)).symm.trans h
    exact ⟨hs, fun _ => rfl⟩

/-! ### The output events (10_state R33, 41_data_io R101) -/

theorem exec_prn_ok {ra : Byte} (ha : ra.toNat < 8) (s : State) :
    exec (.prn ra) s = .next ((s.emit (s.reg ⟨ra.toNat, ha⟩)).seq .prn) := by rw [exec_prn, withReg_ok ha]

/-- The frame of the output: every effect but that of a PRN of a register leaves it, an error included. -/
theorem Effect.out_eq {i : Instr} {s t : State} (h : Effect i s t) (hi : ∀ ra : Byte, ra.toNat < 8 → i ≠ .prn ra) :
    t.out = s.out := by
  cases h with
  | prn ha => exact absurd rfl (hi _ ha)
  | _ => simp

/-- Settles O42: a step that runs PRN of a register emits it, and no other one touches the output. -/
theorem onlyPrnEmits : Obligations.OnlyPrnEmits := by
  refine ⟨rfl, fun s t h => ⟨fun ra ha hr hp hd => ?_, fun hout => ?_⟩⟩
  · cases ((step_known hr hp hd).trans (exec_prn_ok ha s)).symm.trans h
    rw [State.seq_out, State.emit_out]
  · obtain ⟨-, rfl⟩ | ⟨-, -, f, -, rfl⟩ | ⟨i, hr, hp, hd, heff⟩ := step_inversion h
    · exact absurd rfl hout
    · exact absurd rfl hout
    · refine ⟨hr, hp, by_contra fun hno => hout (heff.out_eq ?_)⟩
      rintro ra ha rfl
      exact hno ⟨ra, ha, hd⟩

end Sys2Proof.Machine
end

section
/-! PROOFS. Create, load and launch (70_reset R180 to R183, 60_exceptions R165): what a load leaves in memory, that a load that
fails never launches, and that every machine so made meets the invariant. -/

namespace Sys2Proof.Machine

/-! ### A failed load (70_reset R181, 60_exceptions R165) -/

/-- A machine that holds a fault record does not launch. -/
theorem State.launch_of_fault {s : State} (h : s.fault ≠ none) : s.launch = s := by
  obtain ⟨f, hf⟩ := Option.ne_none_iff_exists'.1 h
  simp only [State.launch, hf]

/-- A load past 255 writes what fits and raises at 256. -/
theorem State.loadFrom_eq_raise_of_long {k : Nat} {p : List Byte} (hk : k ≤ 256) (h : 256 < k + p.length) (s : State) :
    ∃ m, s.loadFrom k p = { s with mem := m }.raise ⟨.addressError, 256⟩ := by
  induction p generalizing s k with
  | nil => exact absurd h (Nat.not_lt.2 hk)
  | cons b bs ih =>
    rw [List.length_cons] at h
    obtain hlt | rfl := Nat.lt_or_eq_of_le hk
    · rw [State.loadFrom_cons hlt]
      exact ih hlt (by omega) { s with mem := s.mem.write k b }
    · exact ⟨s.mem, State.loadFrom_past_top (Nat.le_refl 256) s b bs⟩

theorem boot_of_long {p : List Byte} (h : 256 < p.length) (ext : Bool) :
    ∃ m, boot ext (some p) = { State.create ext with mem := m }.raise ⟨.addressError, 256⟩ := by
  obtain ⟨m, hm⟩ := (State.create ext).loadFrom_eq_raise_of_long (k := 0) (p := p) (by omega) (by omega)
  refine ⟨m, ?_⟩
  rw [boot, State.load, hm]
  exact State.launch_of_fault (Option.some_ne_none _)

/-- Settles O19: the load raised, so the launch leaves the machine Halted, and a Halted machine stays. -/
theorem longProgramNeverLaunches : Obligations.LongProgramNeverLaunches := by
  intro ext p h
  obtain ⟨m, hm⟩ := boot_of_long h ext
  rw [hm]
  exact ⟨rfl, rfl, fun k => haltedStaysForGood _ k rfl⟩

theorem boot_none (ext : Bool) : boot ext none = (State.create ext).raise ⟨.programLoadError, 0⟩ := rfl

/-- Settles O20: the created machine, its memory empty, with the record and nothing else; it is Halted and stays so. -/
theorem failedLoadNeverLaunches : Obligations.FailedLoadNeverLaunches := by
  refine ⟨rfl, fun ext => ?_⟩
  rw [boot_none]
  exact ⟨rfl, rfl, fun _ => rfl, fun k => haltedStaysForGood _ k rfl⟩

/-! ### A load that fits (70_reset R180 to R183) -/

/-- Memory after a load that fits: the program's bytes where they were put, and the old bytes elsewhere. -/
theorem State.loadFrom_read {k : Nat} {p : List Byte} (h : k + p.length ≤ 256) (s : State) (a : Nat) :
    (s.loadFrom k p).mem.read a = if k ≤ a then p.getD (a - k) (s.mem.read a) else s.mem.read a := by
  induction p generalizing s k with
  | nil => simp [State.loadFrom]
  | cons b bs ih =>
    rw [List.length_cons] at h
    rw [State.loadFrom_cons (by omega), ih (by omega), Memory.read_write]
    obtain hlt | rfl | hgt := Nat.lt_trichotomy a k
    · simp [Nat.not_le.2 hlt, Nat.ne_of_lt hlt, Nat.not_le.2 (Nat.lt_succ_of_lt hlt)]
    · simp
    · obtain ⟨d, rfl⟩ := Nat.exists_eq_add_of_lt hgt
      simp [Nat.add_assoc, Nat.add_sub_add_left]

/-- The launched machine of a program that fits, but for its memory. -/
theorem boot_of_fits {p : List Byte} (h : p.length ≤ 256) (ext : Bool) :
    boot ext (some p) =
      { (State.create ext).setReg Config.spIndex Config.spInit with
        mem := ((State.create ext).load p).mem, run := .running, pc := Config.pcInit } := by
  obtain ⟨m, hm⟩ := (State.create ext).loadFrom_eq_of_fits (k := 0) (p := p) (by omega)
  rw [boot, State.launch_of_no_fault (load_create_fault h ext), State.load, hm]
  rfl

theorem State.create_reg (ext : Bool) (j : Fin 8) : (State.create ext).reg j = 0 := by
  simp [State.reg, State.create]

/-- Settles O18: memory by the load of a created machine, whose bytes are 0; the other fields are the launch's. -/
theorem loadedProgramIsInMemory : Obligations.LoadedProgramIsInMemory := by
  intro ext p h
  rw [boot_of_fits h]
  refine ⟨fun a _ => ?_, fun j hj => ?_, rfl, rfl, rfl, rfl, rfl, rfl⟩
  · exact ((State.create ext).loadFrom_read (by omega) a).trans (if_pos (Nat.zero_le a))
  · exact ((State.create ext).setReg_reg_other Config.spInit hj).trans (State.create_reg ext j)

/-- Settles O17: the fields as State.reset has them, each register but SP being 0. -/
theorem resetIsTheLaunchState : Obligations.ResetIsTheLaunchState :=
  ⟨rfl, rfl, rfl, by decide, rfl, rfl, rfl, fun _ => rfl, rfl, rfl⟩

/-! ### The invariant at launch -/

/-- A raise of a legal record keeps the invariant. -/
theorem Inv.raise {s : State} (h : Inv s) {f : FaultRecord} (hf : f.legal s.extAlu = true) : Inv (s.raise f) where
  mem_wf := h.mem_wf
  fl_one := h.fl_one
  fault_halted _ := rfl
  fault_legal g hg := by
    cases hg
    exact hf

theorem Inv.create (ext : Bool) : Inv (State.create ext) := ⟨rfl, rfl, fun h => absurd rfl h, fun _ h => nomatch h⟩

/-- A load keeps the invariant: it writes inside memory, or raises AddressError(256) at the first byte past it. -/
theorem Inv.loadFrom {k : Nat} {s : State} (h : Inv s) (hk : k ≤ 256) (p : List Byte) : Inv (s.loadFrom k p) := by
  induction p generalizing s k with
  | nil => exact h
  | cons b bs ih =>
    obtain hlt | rfl := Nat.lt_or_eq_of_le hk
    · rw [State.loadFrom_cons hlt]
      exact ih ⟨Memory.wf_write h.mem_wf hlt b, h.fl_one, h.fault_halted, h.fault_legal⟩ hlt
    · rw [State.loadFrom_past_top (Nat.le_refl 256)]
      exact h.raise rfl

/-- A launch keeps the invariant: it happens only where there is no fault record. -/
theorem Inv.launch {s : State} (h : Inv s) : Inv s.launch := by
  by_cases hf : s.fault = none
  · rw [State.launch_of_no_fault hf]
    exact ⟨h.mem_wf, h.fl_one, fun hn => absurd hf hn, h.fault_legal⟩
  · rwa [State.launch_of_fault hf]

/-- Settles O50: the created machine meets the invariant, and load, failed load and launch keep it. -/
theorem bootMeetsInvariant : Obligations.BootMeetsInvariant := by
  intro ext p
  cases p with
  | none => exact ((Inv.create ext).raise rfl).launch
  | some p => exact ((Inv.create ext).loadFrom (Nat.zero_le 256) p).launch

/-- Settles O48: State.reset is the launch of nothing loaded. -/
theorem resetMeetsInvariant : Obligations.ResetMeetsInvariant := bootMeetsInvariant false (some [])

end Sys2Proof.Machine
end

section
/-! PROOFS. The canonical form of memory (20_memory R40): the lists the model keeps are the 256-byte arrays. -/

namespace Sys2Proof.Machine

@[simp] theorem Memory.read_cons_same (a : Nat) (v : Byte) (m : Memory) : Memory.read ((a, v) :: m) a = v := if_pos rfl

theorem Memory.read_cons_other {a b : Nat} (v : Byte) (m : Memory) (h : a ≠ b) :
    Memory.read ((a, v) :: m) b = m.read b := if_neg h

/-- A memory with a byte other than 0 in its first cell, at `a`, does not read as one canonical from above `a`. -/
theorem Memory.not_read_eq_of_lt {lo a : Nat} {v : Byte} {m rest : Memory} (hv : v ≠ Config.creationByte) (ha : a < lo)
    (hm : Memory.wfFrom lo m = true) (h : ∀ x, Memory.read ((a, v) :: rest) x = m.read x) : False := by
  have hx := h a
  rw [Memory.read_cons_same, Memory.read_below ha hm] at hx
  exact hv hx

/-- Memories canonical from one bound that read alike are equal: their first cells are at one address, the lower one being read as
0 by the other memory, and so on after it. -/
theorem Memory.eq_of_read_eq {lo : Nat} {m m' : Memory} (hm : Memory.wfFrom lo m = true) (hm' : Memory.wfFrom lo m' = true)
    (h : ∀ x, m.read x = m'.read x) : m = m' := by
  induction m generalizing lo m' with
  | nil =>
    cases m' with
    | nil => rfl
    | cons c' rest' =>
      obtain ⟨-, -, hv, -⟩ := Memory.wfFrom_cons.1 hm'
      exact (Memory.not_read_eq_of_lt (m := []) hv (Nat.lt_succ_self _) rfl fun x => (h x).symm).elim
  | cons c rest ih =>
    obtain ⟨a, v⟩ := c
    obtain ⟨-, ha, hv, hrest⟩ := Memory.wfFrom_cons.1 hm
    cases m' with
    | nil => exact (Memory.not_read_eq_of_lt (m := []) hv (Nat.lt_succ_self _) rfl h).elim
    | cons c' rest' =>
      obtain ⟨a', v'⟩ := c'
      obtain ⟨-, ha', hv', hrest'⟩ := Memory.wfFrom_cons.1 hm'
      obtain hlt | rfl | hgt := Nat.lt_trichotomy a a'
      · have hfrom : Memory.wfFrom a' ((a', v') :: rest') = true :=
          Memory.wfFrom_cons.2 ⟨Nat.le_refl a', ha', hv', hrest'⟩
        exact (Memory.not_read_eq_of_lt hv hlt hfrom h).elim
      · have hcell : v = v' := by simpa using h a
        have htail : ∀ x, Memory.read rest x = Memory.read rest' x := by
          intro x
          by_cases hx : x ≤ a
          · rw [Memory.read_below (Nat.lt_succ_of_le hx) hrest, Memory.read_below (Nat.lt_succ_of_le hx) hrest']
          · have hne : a ≠ x := by omega
            rw [← Memory.read_cons_other v rest hne, h x, Memory.read_cons_other v' rest' hne]
        rw [hcell, ih hrest hrest' htail]
      · have hfrom : Memory.wfFrom a ((a, v) :: rest) = true := Memory.wfFrom_cons.2 ⟨Nat.le_refl a, ha, hv, hrest⟩
        exact (Memory.not_read_eq_of_lt hv' hgt hfrom fun x => (h x).symm).elim

/-- Settles O51: the canonical form is canonical from address 0. -/
theorem memoryIsCanonical : Obligations.MemoryIsCanonical := fun _ _ hm hm' h => Memory.eq_of_read_eq hm hm' h

end Sys2Proof.Machine
end

section
/-! PROOFS. The frames of an instruction (10_state R24, 20_memory R48, 40_sequencer R91): which registers and which byte of memory
it can change, over its effects, an error included. -/

namespace Sys2Proof.Machine

/-- A register operand that is not register `j` names another one. -/
theorem ne_regOperand {b : Byte} (hb : b.toNat < 8) {j : Fin 8} (h : b.toNat ≠ j.val) : j ≠ ⟨b.toNat, hb⟩ :=
  fun e => h (congrArg Fin.val e).symm

/-- Only register operand 7 names SP. -/
theorem regOperand_eq_sp_iff {b : Byte} (hb : b.toNat < 8) : (⟨b.toNat, hb⟩ : Fin 8) = Config.spIndex ↔ b.toNat = 7 :=
  Fin.ext_iff

theorem State.setReg_sp_same (s : State) (v : Byte) : (s.setReg Config.spIndex v).sp = v := s.setReg_reg_same _ v

theorem State.setReg_sp_other (s : State) {i : Fin 8} (v : Byte) (h : i ≠ Config.spIndex) : (s.setReg i v).sp = s.sp :=
  s.setReg_reg_other v h.symm

/-! ### Registers (10_state R24) -/

theorem Effect.reg_eq {i : Instr} {s t : State} (h : Effect i s t) {j : Fin 8} (hj : ∀ b ∈ i.regWrites, b.toNat ≠ j.val) :
    t.reg j = s.reg j := by
  cases h with
  | ldi ha | add ha | mul ha | sub ha | and ha | or ha | xor ha =>
    rw [State.seq_reg]
    exact State.setReg_reg_other s _ (ne_regOperand ha (hj _ List.mem_cons_self))
  | pop ha =>
    have hsp : j ≠ Config.spIndex := ne_regOperand (b := 7) (by decide) (hj 7 (by simp [Instr.regWrites]))
    rw [State.seq_reg, State.incSp_reg, if_neg hsp]
    exact State.setReg_reg_other s _ (ne_regOperand ha (hj _ List.mem_cons_self))
  | push | call | ret =>
    have hsp : j ≠ Config.spIndex := ne_regOperand (b := 7) (by decide) (hj 7 List.mem_cons_self)
    simp [State.decSp_reg, State.incSp_reg, hsp]
  | _ => simp

/-- Settles O43: the frame of the registers over the effects. -/
theorem generalRegisterFrame : Obligations.GeneralRegisterFrame := fun _ _ _ _ h hj => (effect_of_exec h).reg_eq hj

/-- A write of a destination register that changes SP has register operand 7. -/
theorem eq_seven_of_setReg_sp_ne {s : State} {b v : Byte} {hb : b.toNat < 8} {m : Op}
    (h : ((s.setReg ⟨b.toNat, hb⟩ v).seq m).sp ≠ s.sp) : b = 7 := by
  by_contra hne
  refine h ((State.seq_sp _ m).trans (s.setReg_sp_other v fun e => hne ?_))
  exact BitVec.eq_of_toNat_eq ((regOperand_eq_sp_iff hb).1 e)

/-- Settles O44: of the effects, those of PUSH, CALL, RET and POP move SP, and a destination may be register 7. -/
theorem stackPointerChanges : Obligations.StackPointerChanges := by
  intro i s t h hne
  cases effect_of_exec h with
  | push ha => exact .inl ⟨⟨_, .inl rfl⟩, by simp⟩
  | call ha => exact .inl ⟨⟨_, .inr rfl⟩, by simp⟩
  | ret => exact .inr (.inl ⟨.inl rfl, by simp⟩)
  | @pop _ ra ha =>
    by_cases hra : ra = 7
    · subst hra
      exact .inr (.inr ⟨by simp [Instr.op], rfl⟩)
    · have hsp : (⟨ra.toNat, ha⟩ : Fin 8) ≠ Config.spIndex := fun e =>
        hra (BitVec.eq_of_toNat_eq ((regOperand_eq_sp_iff ha).1 e))
      refine .inr (.inl ⟨.inr ⟨ra, rfl, hra⟩, ?_⟩)
      rw [State.seq_sp, State.incSp_sp, s.setReg_sp_other _ hsp]
  | ldi ha | add ha | mul ha | sub ha | and ha | or ha | xor ha =>
    obtain rfl := eq_seven_of_setReg_sp_ne hne
    exact .inr (.inr ⟨by simp [Instr.op], rfl⟩)
  | _ => exact absurd (by simp) hne

/-! ### Memory (20_memory R44, R48) -/

/-- Settles O45: the effects of PUSH and of CALL write the one byte at the decremented SP, and the others none. -/
theorem memoryFrame : Obligations.MemoryFrame := by
  intro i s t a h ha
  cases effect_of_exec h with
  | push | call =>
    have hne : a ≠ s.decSp.sp.toNat := fun e => ha (congrArg some e.symm)
    simpa using Memory.read_write_other s.mem _ hne
  | _ => simp

end Sys2Proof.Machine
end

section
/-! PROOFS. What each instruction does where it completes (41_data_io to 44_control): a rule for each state operation about its
frame, `exec` as one equation where the operands are good, and from these each statement. -/

namespace Sys2Proof.Machine

/-! ### The frames under an advance and a write -/

theorem SameRegsBut.seq {l : List (Fin 8)} {s u : State} (h : SameRegsBut l s u) (m : Op) : SameRegsBut l s (u.seq m) :=
  fun j hj => (u.seq_reg m j).trans (h j hj)

theorem SameMem.seq {s u : State} (h : SameMem s u) (m : Op) : SameMem s (u.seq m) := fun a => by
  rw [State.seq_mem, h a]

theorem SameMemBut.seq {a : Nat} {s u : State} (h : SameMemBut a s u) (m : Op) : SameMemBut a s (u.seq m) := fun b hb => by
  rw [State.seq_mem, h b hb]

theorem SameControl.refl (s : State) : SameControl s s := ⟨rfl, rfl, rfl⟩

/-- An advance inside memory raises nothing. -/
theorem SameControl.seq {s u : State} (h : SameControl s u) {m : Op} (hp : u.pc.toNat + adv m ≤ 255) :
    SameControl s (u.seq m) := by
  obtain ⟨hrun, hfault, hext⟩ := h
  exact ⟨(State.seq_run hp).trans hrun, (State.seq_fault hp).trans hfault, (u.seq_extAlu m).trans hext⟩

theorem OnlyRegs.refl (l : List (Fin 8)) (s : State) : OnlyRegs l s s :=
  ⟨fun _ _ => rfl, fun _ => rfl, rfl, rfl, .refl s⟩

theorem OnlyRegs.seq {l : List (Fin 8)} {s u : State} (h : OnlyRegs l s u) {m : Op} (hp : u.pc.toNat + adv m ≤ 255) :
    OnlyRegs l s (u.seq m) := by
  obtain ⟨hregs, hmem, hfl, hout, hctl⟩ := h
  exact ⟨hregs.seq m, hmem.seq m, (u.seq_fl m).trans hfl, (u.seq_out m).trans hout, hctl.seq hp⟩

/-- A jump writes PC alone. -/
theorem OnlyRegs.target {l : List (Fin 8)} {s u : State} (h : OnlyRegs l s u) (v : Byte) : OnlyRegs l s (u.target v) := h

theorem OnlyRegs.setReg {l : List (Fin 8)} {s u : State} (h : OnlyRegs l s u) {i : Fin 8} (hi : i ∈ l) (v : Byte) :
    OnlyRegs l s (u.setReg i v) := by
  obtain ⟨hregs, hrest⟩ := h
  refine ⟨fun j hj => ?_, hrest⟩
  rw [State.setReg_reg_other u v fun e : j = i => hj (e ▸ hi), hregs j hj]

/-- A register write and an advance inside memory. -/
theorem State.setReg_seq_spec {s : State} {m : Op} (hp : s.pc.toNat + adv m ≤ 255) (i : Fin 8) (v : Byte) :
    ((s.setReg i v).seq m).reg i = v ∧ ((s.setReg i v).seq m).pc.toNat = s.pc.toNat + adv m ∧
      OnlyRegs [i] s ((s.setReg i v).seq m) := by
  refine ⟨?_, State.seq_pc hp, ((OnlyRegs.refl [i] s).setReg List.mem_cons_self v).seq hp⟩
  rw [State.seq_reg, State.setReg_reg_same]

/-! ### LDI and PRN (41_data_io) -/

/-- Settles O21: a register write and an advance of 3. -/
theorem ldiStoresImmediate : Obligations.LdiStoresImmediate := by
  intro s ra imm ha hp
  refine ⟨_, exec_ldi ra imm s, ?_⟩
  rw [withReg_ok ha]
  exact State.setReg_seq_spec hp ⟨ra.toNat, ha⟩ imm

/-- Settles O22: an output event and an advance of 2. -/
theorem prnEmitsRegister : Obligations.PrnEmitsRegister := by
  intro s ra ha hp
  have hctl : SameControl s (s.emit (s.reg ⟨ra.toNat, ha⟩)) := .refl s
  refine ⟨_, exec_prn_ok ha s, State.seq_out _ _, State.seq_pc hp, ?_, ?_, State.seq_fl _ _, hctl.seq hp⟩
  · exact SameRegsBut.seq (fun _ _ => rfl) .prn
  · exact SameMem.seq (fun _ => rfl) .prn

/-! ### The ALU instructions (42_alu) -/

/-- An ALU instruction of good operands whose operation answers a byte: it is stored, and PC advances. -/
theorem aluInstr_byte_spec {m : Op} {op : AluOp} {ra rb : Byte} (ha : ra.toNat < 8) (hb : rb.toNat < 8) {s : State}
    (hc : op.configured s.extAlu = true) {v : Byte}
    (hv : op.compute (s.reg ⟨ra.toNat, ha⟩) (s.reg ⟨rb.toNat, hb⟩) = .byte v) (hp : s.pc.toNat + adv m ≤ 255) :
    (aluInstr m op ra rb s).reg ⟨ra.toNat, ha⟩ = v ∧ (aluInstr m op ra rb s).pc.toNat = s.pc.toNat + adv m ∧
      OnlyRegs [⟨ra.toNat, ha⟩] s (aluInstr m op ra rb s) := by
  rw [aluInstr_byte ha hb hc hv]
  exact State.setReg_seq_spec hp _ v

/-- Settles O24: the sum of two 8-bit words. -/
theorem addWraps : Obligations.AddWraps := by
  intro s ra rb ha hb hp
  obtain ⟨hreg, hrest⟩ := aluInstr_byte_spec (m := .add) (op := .add) ha hb (s := s) rfl rfl hp
  exact ⟨_, exec_add ra rb s, hreg ▸ BitVec.toNat_add _ _, hrest⟩

/-- Settles O25: the product of two 8-bit words. -/
theorem mulKeepsLowByte : Obligations.MulKeepsLowByte := by
  intro s ra rb ha hb hp
  obtain ⟨hreg, hrest⟩ := aluInstr_byte_spec (m := .mul) (op := .mul) ha hb (s := s) rfl rfl hp
  exact ⟨_, exec_mul ra rb s, hreg ▸ BitVec.toNat_mul _ _, hrest⟩

/-- The difference of two bytes modulo 256. -/
theorem toNat_sub_byte (a b : Byte) : (a - b).toNat = (a.toNat + 256 - b.toNat) % 256 := by
  have hb := b.isLt
  rw [BitVec.toNat_sub]
  omega

/-- Settles O27: the difference of two 8-bit words. -/
theorem subWraps : Obligations.SubWraps := by
  intro s ra rb ha hb hx hp
  obtain ⟨hreg, hrest⟩ := aluInstr_byte_spec (m := .sub) (op := .sub) ha hb (s := s) hx rfl hp
  exact ⟨_, exec_sub ra rb s, hreg ▸ toNat_sub_byte _ _, hrest⟩

/-- Settles O28: the bitwise operations of two 8-bit words. -/
theorem bitwiseOperations : Obligations.BitwiseOperations := by
  intro s ra rb ha hb hx hp
  obtain ⟨hand, handRest⟩ := aluInstr_byte_spec (m := .and) (op := .and) ha hb (s := s) hx rfl hp
  obtain ⟨hor, horRest⟩ := aluInstr_byte_spec (m := .or) (op := .or) ha hb (s := s) hx rfl hp
  obtain ⟨hxor, hxorRest⟩ := aluInstr_byte_spec (m := .xor) (op := .xor) ha hb (s := s) hx rfl hp
  exact ⟨⟨_, exec_and ra rb s, fun _ => hand ▸ BitVec.getLsbD_and, handRest⟩,
    ⟨_, exec_or ra rb s, fun _ => hor ▸ BitVec.getLsbD_or, horRest⟩,
    ⟨_, exec_xor ra rb s, fun _ => hxor ▸ BitVec.getLsbD_xor, hxorRest⟩⟩

/-- FL after a compare, in the layout of 10_state R27. -/
theorem compareFlags_byte (a b : Byte) :
    (compareFlags a b).byte = if a = b then 0b001 else if a.toNat < b.toNat then 0b100 else 0b010 := by
  obtain h | h | h := Nat.lt_trichotomy a.toNat b.toNat
  · have hne : a ≠ b := ne_of_apply_ne BitVec.toNat (Nat.ne_of_lt h)
    simp [compareFlags, Flags.byte, h, hne, Nat.lt_asymm h]
  · simp [compareFlags, Flags.byte, BitVec.eq_of_toNat_eq h]
  · have hne : a ≠ b := ne_of_apply_ne BitVec.toNat (Nat.ne_of_gt h)
    simp [compareFlags, Flags.byte, h, hne, Nat.lt_asymm h]

/-- Settles O26: FL by the laws of the compare, and an advance of 3. -/
theorem cmpSetsFlags : Obligations.CmpSetsFlags := by
  intro s ra rb ha hb hp
  have hctl : SameControl s (s.setFl (compareFlags (s.reg ⟨ra.toNat, ha⟩) (s.reg ⟨rb.toNat, hb⟩))) := .refl s
  refine ⟨_, exec_cmp_ok ha hb s, ?_⟩
  rw [State.seq_fl]
  exact ⟨compareFlags_e _ _, compareFlags_l _ _, compareFlags_g _ _, compareFlags_byte _ _, State.seq_pc hp,
    SameRegsBut.seq (fun _ _ => rfl) .cmp, SameMem.seq (fun _ => rfl) .cmp, State.seq_out _ _, hctl.seq hp⟩

/-- Without the operation the ALU fails, operands good. -/
theorem exec_alu_unconfigured {i : Instr} {op : AluOp} {ra rb : Byte} {s : State}
    (hi : exec i s = .next (aluInstr i.op op ra rb s)) (ha : ra.toNat < 8) (hb : rb.toNat < 8)
    (hc : op.configured s.extAlu = false) :
    ∃ t, exec i s = .next t ∧ Raised s t ⟨.unsupportedOperationError, (opcodeOf i.op).toNat⟩ := by
  refine ⟨_, hi, ?_⟩
  rw [aluInstr, withRegs_ok ha hb, aluApply_unconfigured hc, storeAlu]
  exact s.raised_raise _

/-- Settles O38: each of the four hands the ALU an operation it does not have. -/
theorem unconfiguredAluRaises : Obligations.UnconfiguredAluRaises := by
  intro s ra rb ha hb hx i hi
  simp only [List.mem_cons, List.not_mem_nil, or_false] at hi
  obtain rfl | rfl | rfl | rfl := hi
  · exact exec_alu_unconfigured (exec_sub ra rb s) ha hb hx
  · exact exec_alu_unconfigured (exec_and ra rb s) ha hb hx
  · exact exec_alu_unconfigured (exec_or ra rb s) ha hb hx
  · exact exec_alu_unconfigured (exec_xor ra rb s) ha hb hx

/-! ### The stack (43_stack, 40_sequencer R92) -/

/-- A byte pushed: SP decremented, then the byte written at the new SP. -/
def State.push (s : State) (v : Byte) : State := s.decSp.writeTop v

/-- The top popped into a register, then R7 as it then stands incremented. -/
def State.pop (s : State) (i : Fin 8) : State := (s.setReg i s.readTop).incSp

theorem exec_push_ok {ra : Byte} (ha : ra.toNat < 8) (s : State) :
    exec (.push ra) s = .next ((s.push (s.decSp.reg ⟨ra.toNat, ha⟩)).seq .push) := by
  rw [exec_push, withReg_ok ha, State.push]

theorem exec_pop_ok {ra : Byte} (ha : ra.toNat < 8) (s : State) :
    exec (.pop ra) s = .next ((s.pop ⟨ra.toNat, ha⟩).seq .pop) := by
  rw [exec_pop, withReg_ok ha, State.pop]

theorem exec_call_ok {ra : Byte} (ha : ra.toNat < 8) (s : State) :
    exec (.call ra) s = .next ((s.push (s.pc + 2)).target (s.decSp.reg ⟨ra.toNat, ha⟩)) := by
  rw [exec_call, withReg_ok ha, State.push]

theorem State.push_sp (s : State) (v : Byte) : (s.push v).sp = s.sp - 1 := s.decSp_sp

theorem State.push_reg (s : State) (v : Byte) (j : Fin 8) :
    (s.push v).reg j = if j = Config.spIndex then s.sp - 1 else s.reg j := s.decSp_reg j

theorem State.push_mem (s : State) (v : Byte) : (s.push v).mem = s.mem.write (s.sp - 1).toNat v := by
  rw [State.push, State.writeTop_mem, State.decSp_sp, State.decSp_mem]

theorem State.push_read (s : State) (v : Byte) : (s.push v).mem.read (s.sp - 1).toNat = v := by
  rw [State.push_mem, Memory.read_write_same]

theorem State.push_sameMemBut (s : State) (v : Byte) : SameMemBut (s.sp - 1).toNat s (s.push v) := fun a ha => by
  rw [State.push_mem, Memory.read_write_other s.mem v ha]

theorem State.push_sameRegsBut (s : State) (v : Byte) : SameRegsBut [7] s (s.push v) := fun j hj => by
  rw [State.push_reg, if_neg fun e => hj (List.mem_singleton.2 e)]

/-- The register operand of PUSH and CALL, read after the decrement: R7 is then the new SP (D9, log entry 9). -/
theorem State.decSp_regOperand (s : State) {b : Byte} (hb : b.toNat < 8) :
    s.decSp.reg ⟨b.toNat, hb⟩ = if b.toNat = 7 then s.sp - 1 else s.reg ⟨b.toNat, hb⟩ := by
  rw [State.decSp_reg]
  exact if_congr (regOperand_eq_sp_iff hb) rfl rfl

theorem toNat_sub_one_byte (b : Byte) : (b - 1).toNat = (b.toNat + 255) % 256 := by
  rw [toNat_sub_byte]
  rfl

theorem toNat_add_one_byte (b : Byte) : (b + 1).toNat = (b.toNat + 1) % 256 := BitVec.toNat_add b 1

/-- Settles O29: a push of the register as it stands after the decrement, and an advance of 2. -/
theorem pushStoresBelowTop : Obligations.PushStoresBelowTop := by
  intro s ra ha hp
  have hctl : SameControl s (s.push (s.decSp.reg ⟨ra.toNat, ha⟩)) := .refl s
  refine ⟨_, exec_push_ok ha s, ?_, ?_, (s.push_sameMemBut _).seq .push, State.seq_pc hp,
    (s.push_sameRegsBut _).seq .push, State.seq_fl _ _, State.seq_out _ _, hctl.seq hp⟩
  · rw [State.seq_sp, State.push_sp, toNat_sub_one_byte]
  · rw [State.seq_mem, State.push_read, State.decSp_regOperand]

theorem State.pop_reg_same (s : State) {i : Fin 8} (h : i ≠ Config.spIndex) : (s.pop i).reg i = s.readTop := by
  rw [State.pop, State.incSp_reg, if_neg h, State.setReg_reg_same]

theorem State.pop_reg_other (s : State) {i j : Fin 8} (hi : j ≠ i) (hj : j ≠ Config.spIndex) : (s.pop i).reg j = s.reg j := by
  rw [State.pop, State.incSp_reg, if_neg hj, State.setReg_reg_other s _ hi]

theorem State.pop_sp_other (s : State) {i : Fin 8} (h : i ≠ Config.spIndex) : (s.pop i).sp = s.sp + 1 := by
  rw [State.pop, State.incSp_sp, s.setReg_sp_other _ h]

/-- POP R7 leaves the byte plus 1 (D9, log entry 9). -/
theorem State.pop_sp_same (s : State) : (s.pop Config.spIndex).sp = s.readTop + 1 := by
  rw [State.pop, State.incSp_sp, State.setReg_sp_same]

/-- Settles O30: the byte at SP, then the increment of R7, and an advance of 2. -/
theorem popLoadsTop : Obligations.PopLoadsTop := by
  intro s ra ha hp
  have honly : OnlyRegs [⟨ra.toNat, ha⟩, 7] s (s.pop ⟨ra.toNat, ha⟩) :=
    ((OnlyRegs.refl _ s).setReg List.mem_cons_self _).setReg (List.mem_cons_of_mem _ List.mem_cons_self) _
  refine ⟨_, exec_pop_ok ha s, fun hne => ?_, fun heq => ?_, State.seq_pc hp, honly.seq hp⟩
  · have hsp : (⟨ra.toNat, ha⟩ : Fin 8) ≠ Config.spIndex := mt (regOperand_eq_sp_iff ha).1 hne
    rw [State.seq_reg, State.seq_sp, s.pop_reg_same hsp, s.pop_sp_other hsp, toNat_add_one_byte]
    exact ⟨rfl, rfl⟩
  · rw [State.seq_sp, (regOperand_eq_sp_iff ha).2 heq, State.pop_sp_same, toNat_add_one_byte]
    rfl

/-! ### The jumps (44_control) -/

/-- The return address does not wrap where a step can run CALL (log entry 13). -/
theorem State.pc_add_two {s : State} (hp : s.pc.toNat ≤ 253) : (s.pc + 2).toNat = s.pc.toNat + 2 := by
  have htwo : (2 : Byte).toNat = 2 := rfl
  rw [BitVec.toNat_add, htwo]
  omega

/-- Settles O31: a push of PC + 2, then the register as it stands after the decrement. -/
theorem callPushesReturnAddress : Obligations.CallPushesReturnAddress := by
  intro s ra ha hp
  refine ⟨_, exec_call_ok ha s, ?_, ?_, s.push_sameMemBut (s.pc + 2), s.decSp_regOperand ha,
    s.push_sameRegsBut (s.pc + 2), rfl, rfl, .refl s⟩
  · rw [State.target_sp, State.push_sp, toNat_sub_one_byte]
  · rw [State.target_mem, State.push_read, State.pc_add_two hp]

/-- Settles O32: the byte at SP is the target, and SP is incremented. -/
theorem retPopsTarget : Obligations.RetPopsTarget := by
  intro s
  refine ⟨_, exec_ret s, rfl, ?_, ((OnlyRegs.refl [7] s).setReg List.mem_cons_self _).target _⟩
  rw [State.target_sp, State.incSp_sp, toNat_add_one_byte]

/-- Settles O33: JMP is `State.target` of the register. -/
theorem jmpSetsPc : Obligations.JmpSetsPc := by
  intro s ra ha
  refine ⟨_, exec_jmp ra s, ?_⟩
  rw [withReg_ok ha]
  exact ⟨rfl, (OnlyRegs.refl [] s).target _⟩

theorem exec_jeq_ok {ra : Byte} (ha : ra.toNat < 8) (s : State) :
    exec (.jeq ra) s = .next (if s.fl.e then s.target (s.reg ⟨ra.toNat, ha⟩) else s.seq .jeq) := by
  rw [exec_jeq, withReg_ok ha, Flags.equalSet_eq]

theorem exec_jne_ok {ra : Byte} (ha : ra.toNat < 8) (s : State) :
    exec (.jne ra) s = .next (if s.fl.e then s.seq .jne else s.target (s.reg ⟨ra.toNat, ha⟩)) := by
  rw [exec_jne, withReg_ok ha, Flags.equalSet_eq]

/-- Settles O34: a jump where E is set, an advance of 2 where it is clear. -/
theorem jeqBranchesOnEqual : Obligations.JeqBranchesOnEqual := by
  refine fun s ra ha => ⟨fun he => ⟨_, exec_jeq_ok ha s, ?_⟩, fun he hp => ⟨_, exec_jeq_ok ha s, ?_⟩⟩
  · rw [if_pos he]
    exact ⟨rfl, (OnlyRegs.refl [] s).target _⟩
  · rw [he, if_neg Bool.false_ne_true]
    exact ⟨State.seq_pc hp, (OnlyRegs.refl [] s).seq hp⟩

/-- Settles O35: a jump where E is clear, an advance of 2 where it is set. -/
theorem jneBranchesOnNotEqual : Obligations.JneBranchesOnNotEqual := by
  refine fun s ra ha => ⟨fun he => ⟨_, exec_jne_ok ha s, ?_⟩, fun he hp => ⟨_, exec_jne_ok ha s, ?_⟩⟩
  · rw [he, if_neg Bool.false_ne_true]
    exact ⟨rfl, (OnlyRegs.refl [] s).target _⟩
  · rw [if_pos he]
    exact ⟨State.seq_pc hp, (OnlyRegs.refl [] s).seq hp⟩

end Sys2Proof.Machine
end

section
/-! PROOFS. The advance past the top of memory (40_sequencer R88): a 3-byte instruction's writes do not depend on PC, so at 253
they are those it makes elsewhere. -/

namespace Sys2Proof.Machine

/-- From two values of PC, an ALU instruction of good operands and a configured operation makes the same writes, then each its
own advance. -/
theorem exec_alu_setPc {i : Instr} {op : AluOp} {ra rb : Byte} (hi : ∀ s, exec i s = .next (aluInstr i.op op ra rb s))
    (ha : ra.toNat < 8) (hb : rb.toNat < 8) {s : State} (hc : op.configured s.extAlu = true) (v : Byte) :
    ∃ w : State, w.pc = s.pc ∧ exec i s = .next (w.seq i.op) ∧ exec i (s.setPc v) = .next ((w.setPc v).seq i.op) := by
  rw [hi, hi]
  cases hr : op.compute (s.reg ⟨ra.toNat, ha⟩) (s.reg ⟨rb.toNat, hb⟩) with
  | byte b =>
    refine ⟨s.setReg ⟨ra.toNat, ha⟩ b, rfl, ?_, ?_⟩
    · rw [aluInstr_byte ha hb hc hr]
    · rw [aluInstr_byte (s := s.setPc v) ha hb hc hr]
      rfl
  | flags f =>
    refine ⟨s.setFl f, rfl, ?_, ?_⟩
    · rw [aluInstr_flags ha hb hc hr]
    · rw [aluInstr_flags (s := s.setPc v) ha hb hc hr]
      rfl

/-- The same of every well-formed 3-byte instruction. -/
theorem exec_three_bytes_setPc {i : Instr} {s : State} (hw : WellFormed s.extAlu i = true) (hlen : (encode i).length = 3)
    (v : Byte) :
    ∃ w : State, w.pc = s.pc ∧ exec i s = .next (w.seq i.op) ∧ exec i (s.setPc v) = .next ((w.setPc v).seq i.op) := by
  obtain ⟨hav, hreg⟩ := wellFormed_iff.1 hw
  cases i with
  | ldi ra imm =>
    have ha : ra.toNat < 8 := hreg ra List.mem_cons_self
    refine ⟨s.setReg ⟨ra.toNat, ha⟩ imm, rfl, ?_, ?_⟩
    · rw [exec_ldi, withReg_ok ha, Instr.op]
    · rw [exec_ldi, withReg_ok ha, Instr.op]
      rfl
  | add ra rb | mul ra rb | cmp ra rb =>
    exact exec_alu_setPc (fun _ => rfl) (hreg ra (mem_two ra (.inl rfl))) (hreg rb (mem_two rb (.inr rfl))) rfl v
  | sub ra rb | and ra rb | or ra rb | xor ra rb =>
    have hx : s.extAlu = true := by simpa using hav
    refine exec_alu_setPc (fun _ => rfl) (hreg ra (mem_two ra (.inl rfl))) (hreg rb (mem_two rb (.inr rfl))) ?_ v
    exact hx
  | _ => cases hlen

/-- Settles O37: the advance raises at 253, and PC apart its state is that of the advance from 0. -/
theorem advancePastTopKeepsWrites : Obligations.AdvancePastTopKeepsWrites := by
  intro i s u hw hlen hp hu
  obtain ⟨w, hpc, hs, h0⟩ := exec_three_bytes_setPc hw hlen 0
  cases h0.symm.trans hu
  have hsum : w.pc.toNat + adv i.op = 256 := by rw [hpc, hp, adv_op_eq_length, hlen]
  refine ⟨_, hs, ?_⟩
  rw [State.seq_past_top (Nat.le_of_eq hsum.symm), hsum]
  simp [hpc]

end Sys2Proof.Machine
end

section
/-! PROOFS. Two instructions in a row (43_stack R133, 44_control R146, 20_memory R56): what a push stores is what the next pop,
RET or fetch reads. -/

namespace Sys2Proof.Machine

/-- The byte pushed is the top of the stack. -/
theorem State.push_readTop (s : State) (v : Byte) : (s.push v).readTop = v := by
  rw [State.readTop, State.readAt, State.push_sp, State.push_read]

theorem State.seq_readTop (s : State) (m : Op) : (s.seq m).readTop = s.readTop := by
  rw [State.readTop, State.readAt, State.seq_mem, State.seq_sp, State.readTop, State.readAt]

/-! ### PUSH then POP (43_stack R133) -/

/-- POP of another register than R7, after a push: that register holds the byte pushed, and SP is back. -/
theorem State.push_seq_pop_reg (s : State) (v : Byte) (m : Op) {i : Fin 8} (hi : i ≠ Config.spIndex) (j : Fin 8) :
    (((s.push v).seq m).pop i).reg j = if j = i then v else s.reg j := by
  split
  next hj => rw [hj, State.pop_reg_same _ hi, State.seq_readTop, State.push_readTop]
  next hj =>
    by_cases hsp : j = Config.spIndex
    · subst hsp
      have hback := State.pop_sp_other ((s.push v).seq m) hi
      rw [State.seq_sp, State.push_sp, BitVec.sub_add_cancel] at hback
      exact hback
    · rw [State.pop_reg_other _ hj hsp, State.seq_reg, State.push_reg, if_neg hsp]

/-- POP R7 after a push leaves the byte pushed plus 1 in SP. -/
theorem State.push_seq_pop_sp (s : State) (v : Byte) (m : Op) :
    (((s.push v).seq m).pop Config.spIndex).sp = v + 1 := by
  rw [State.pop_sp_same, State.seq_readTop, State.push_readTop]

/-- PUSH then POP, inside memory: the registers are those of a push and a pop, and PC has advanced by 4. -/
theorem exec_push_pop {ra rb : Byte} (ha : ra.toNat < 8) (hb : rb.toNat < 8) {s : State} (hp : s.pc.toNat + 4 ≤ 255) :
    ∃ t u, exec (.push ra) s = .next t ∧ exec (.pop rb) t = .next u ∧ u.pc.toNat = s.pc.toNat + 4 ∧
      ∀ j, u.reg j = (((s.push (s.decSp.reg ⟨ra.toNat, ha⟩)).seq .push).pop ⟨rb.toNat, hb⟩).reg j := by
  refine ⟨_, _, exec_push_ok ha s, exec_pop_ok hb _, ?_, State.seq_reg _ _⟩
  have hpush : ((s.push (s.decSp.reg ⟨ra.toNat, ha⟩)).seq .push).pc.toNat = s.pc.toNat + 2 :=
    State.seq_pc (show s.pc.toNat + 2 ≤ 255 by omega)
  have hpop := State.seq_pc (s := ((s.push (s.decSp.reg ⟨ra.toNat, ha⟩)).seq .push).pop ⟨rb.toNat, hb⟩) (m := .pop)
    (show ((s.push _).seq .push).pc.toNat + 2 ≤ 255 by omega)
  exact hpop.trans (congrArg (· + 2) hpush)

/-- Settles O52: the pop undoes the push of SP and takes the byte pushed. -/
theorem pushPopRestores : Obligations.PushPopRestores := by
  intro s ra rb ha hb hra hrb hp
  have hsp : (⟨rb.toNat, hb⟩ : Fin 8) ≠ Config.spIndex := mt (regOperand_eq_sp_iff hb).1 hrb
  obtain ⟨t, u, ht, hu, hpc, hregs⟩ := exec_push_pop ha hb hp
  have hreg : ∀ j, u.reg j = if j = ⟨rb.toNat, hb⟩ then s.reg ⟨ra.toNat, ha⟩ else s.reg j := fun j => by
    rw [hregs, State.push_seq_pop_reg _ _ _ hsp, State.decSp_regOperand, if_neg hra]
  exact ⟨t, u, ht, hu, (hreg Config.spIndex).trans (if_neg hsp.symm), (hreg _).trans (if_pos rfl),
    fun j hj => (hreg j).trans (if_neg fun e => hj (List.mem_singleton.2 e)), hpc⟩

/-- Settles O53: a push of R7 stores the decremented SP, and a pop of R7 increments what it read. -/
theorem pushPopWithStackPointer : Obligations.PushPopWithStackPointer := by
  intro s ra ha hra hp
  have hseven : (7 : Byte).toNat < 8 := by decide
  have hsp : (⟨ra.toNat, ha⟩ : Fin 8) ≠ Config.spIndex := mt (regOperand_eq_sp_iff ha).1 hra
  have hpushed : s.decSp.reg ⟨(7 : Byte).toNat, hseven⟩ = s.sp - 1 := s.decSp_sp
  refine ⟨?_, ?_, ?_⟩
  · obtain ⟨t, u, ht, hu, -, hregs⟩ := exec_push_pop hseven ha hp
    have hreg : ∀ j, u.reg j = if j = ⟨ra.toNat, ha⟩ then s.sp - 1 else s.reg j := fun j => by
      rw [hregs, State.push_seq_pop_reg _ _ _ hsp, hpushed]
    exact ⟨t, u, ht, hu, (hreg _).trans (if_pos rfl), (hreg Config.spIndex).trans (if_neg hsp.symm)⟩
  · obtain ⟨t, u, ht, hu, -, hregs⟩ := exec_push_pop ha hseven hp
    refine ⟨t, u, ht, hu, ((hregs Config.spIndex).trans (s.push_seq_pop_sp _ _)).trans ?_⟩
    rw [State.decSp_regOperand, if_neg hra]
  · obtain ⟨t, u, ht, hu, -, hregs⟩ := exec_push_pop hseven hseven hp
    refine ⟨t, u, ht, hu, ((hregs Config.spIndex).trans (s.push_seq_pop_sp _ _)).trans ?_⟩
    rw [hpushed, BitVec.sub_add_cancel]

/-! ### CALL then RET (44_control R146) -/

/-- Settles O54: RET takes the byte CALL pushed, and its increment undoes CALL's decrement. -/
theorem callRetResumes : Obligations.CallRetResumes := by
  intro s ra ha hp
  refine ⟨_, _, exec_call_ok ha s, exec_ret _, ?_, fun j _ => ?_⟩
  · have htop : ((s.push (s.pc + 2)).target (s.decSp.reg ⟨ra.toNat, ha⟩)).readTop = s.pc + 2 := s.push_readTop _
    rw [State.target_pc, htop, State.pc_add_two hp]
  · rw [State.target_reg, State.incSp_reg, State.target_sp, State.push_sp, State.target_reg, State.push_reg,
      BitVec.sub_add_cancel]
    split
    next hj => rw [hj, State.sp]
    next => rfl

/-! ### A store then a fetch (20_memory R52, R56) -/

/-- The opcode byte of a fetch at the address a push stored to, memory as the push left it. -/
theorem fetch_of_push {s u : State} {v : Byte} (hmem : u.mem = (s.push v).mem) (hpc : u.pc = s.sp - 1)
    (hp : u.pc.toNat ≤ 253) : ∃ l, fetch u = .ok l ∧ l.ir = v :=
  ⟨u.latches, fetch_ok hp, by rw [State.latches, hmem, hpc, State.push_read]⟩

/-- Settles O55: the byte pushed is the register as it stands after the decrement, or PC + 2. -/
theorem fetchSeesStoredByte : Obligations.FetchSeesStoredByte := by
  constructor
  · intro s t u ra ha h hmem hpc hp
    cases (exec_push_ok ha s).symm.trans h
    rw [← State.decSp_regOperand]
    exact fetch_of_push (hmem.trans (State.seq_mem _ _)) hpc hp
  · intro s t u ra ha hs h hmem hpc hp
    cases (exec_call_ok ha s).symm.trans h
    obtain ⟨l, hl, hir⟩ := fetch_of_push (v := s.pc + 2) hmem hpc hp
    exact ⟨l, hl, by rw [hir, State.pc_add_two hs]⟩

end Sys2Proof.Machine
end
